-- ==== Sys2Proof/Word.lean ====
section
/-! DEFINITION. The value types of UM-14 (spec/00_scope.md R1, spec/10_state.md R10): the plate, the byte of the
I/O interfaces, the 3-bit register index and the 25-bit immediate. -/

namespace Sys2Proof

/-- R1, R10: "a 32-bit unsigned word; the machine's only value type". -/
abbrev Plate := BitVec 32

/-- R1: the 8-bit byte of IF-OUT, IF-IN and the loader. -/
abbrev Byte := BitVec 8

/-- R66, U9: a register index is a 3-bit slice, so an index above 7 cannot be written. -/
abbrev RegIdx := BitVec 3

/-- R63, R67: the 25-bit unsigned immediate of format L. -/
abbrev Imm := BitVec 25

/-- The number of values of a plate, 2^32. -/
def plateCount : Nat := 4294967296

/-- R32: the longest segment, 2^32 - 1 plates. -/
def maxSegmentLength : Nat := 4294967295

end Sys2Proof
end

