-- ==== Sys2Proof/Config.lean ====
section
/-! DEFINITION. What an implementation fixes and the spec leaves open (spec/00_scope.md R3).
The arguments INPUT, MAX_TABLE, IO_MAY_FAIL and the instance of POOL_PICK are plain data in State (Machine/State.lean,
Env); this file holds their default values and the one open choice function. -/

namespace Sys2Proof

/-- R3, D18: the default of MAX_TABLE, 2^32 (handles are 32-bit). -/
def Config.defaultMaxTable : Nat := 4294967296

/-- R3, D15: the default of IO_MAY_FAIL. -/
def Config.defaultIoMayFail : Bool := false

/-- POOL_PICK left open (R40, D10, U7): the position an allocation takes out of a non-empty pool, any function at all
of the pool and of the number of draws made before.
It has no body that a proof could use: a statement about it holds for every choice (log 4). -/
opaque Config.poolPick : Nat → List Plate → Nat

end Sys2Proof
end

