-- ==== Sys2Proof/Syntax.lean ====
section
/-! DEFINITION. The instructions of UM-14, one constructor per row of spec/opcode_table.json (spec/30_encoding.md R73).
A constructor carries the operand fields its instruction uses (R65 leaves that to the model; R69: the others are
ignored). -/

namespace Sys2Proof

/-- The sixteen rows of the opcode map (R73): fourteen instructions and the two illegal opcodes (R70).
An illegal word is a constructor by the model's choice (log 11); it keeps its other 28 bits, because the fault record
shows the whole word (R136). -/
inductive Instr where
  /-- CMOV, opcode 0 (R90). -/
  | cmov (a b c : RegIdx)
  /-- AIDX, opcode 1 (R105). -/
  | aidx (a b c : RegIdx)
  /-- AMEND, opcode 2 (R106). -/
  | amend (a b c : RegIdx)
  /-- ADD, opcode 3 (R95). -/
  | add (a b c : RegIdx)
  /-- MUL, opcode 4 (R96). -/
  | mul (a b c : RegIdx)
  /-- DIV, opcode 5 (R97). -/
  | div (a b c : RegIdx)
  /-- NAND, opcode 6 (R98). -/
  | nand (a b c : RegIdx)
  /-- HALT, opcode 7 (R120). -/
  | halt
  /-- ALLOC, opcode 8 (R107). -/
  | alloc (b c : RegIdx)
  /-- ABAND, opcode 9 (R108). -/
  | aband (c : RegIdx)
  /-- OUT, opcode 10 (R115). -/
  | out (c : RegIdx)
  /-- IN, opcode 11 (R116). -/
  | inp (c : RegIdx)
  /-- LOADPROG, opcode 12 (R122). -/
  | loadprog (b c : RegIdx)
  /-- ORTHO, opcode 13 (R91). -/
  | ortho (t : RegIdx) (imm : Imm)
  /-- The illegal opcode 14 (R70), with bits 27:0 of the word. -/
  | illegal14 (rest : BitVec 28)
  /-- The illegal opcode 15 (R70), with bits 27:0 of the word. -/
  | illegal15 (rest : BitVec 28)
  deriving DecidableEq, Repr

/-- R84: whether the instruction is LOADPROG, the only one after which the sequencer does not increment `pc`. -/
def Instr.isLoadprog : Instr → Bool
  | .loadprog _ _ => true
  | .cmov _ _ _ => false
  | .aidx _ _ _ => false
  | .amend _ _ _ => false
  | .add _ _ _ => false
  | .mul _ _ _ => false
  | .div _ _ _ => false
  | .nand _ _ _ => false
  | .halt => false
  | .alloc _ _ => false
  | .aband _ => false
  | .out _ => false
  | .inp _ => false
  | .ortho _ _ => false
  | .illegal14 _ => false
  | .illegal15 _ => false

end Sys2Proof
end

