-- ==== Sys2Proof/Machine/State.lean ====
section
/-! DEFINITION. The state of the machine (spec/10_state.md R24), the environment's arguments (spec/00_scope.md R3), the
fault record (R17), the reasons a step can stop, and the state after reset (spec/70_reset_and_hazards.md). -/

namespace Sys2Proof.Machine

/-- R16: the run state. -/
inductive RunState where
  | running
  | halted
  | faulted
  deriving DecidableEq, Repr

/-- R131: the kinds of fault the spec names; the codes are `FaultKind.code` (Machine/Ops.lean).
`oobRegister` is reserved by the spec and never raised (R142). -/
inductive FaultKind where
  | decodeError
  | oobPc
  | oobSegment
  | oobCell
  | divideByZero
  | ioError
  | oobRegister
  deriving DecidableEq, Repr

/-- R17, R131: the `info` field of the fault record. -/
inductive FaultInfo where
  | absent
  | pc (target : Plate)
  | handle (h : Plate)
  | cell (h j : Plate)
  deriving DecidableEq, Repr

/-- What a transaction answers when it faults: the kind and the offending address (R35). -/
structure FaultCause where
  kind : FaultKind
  info : FaultInfo
  deriving DecidableEq, Repr

/-- R17: the fault record. -/
structure FaultRecord where
  kind : FaultKind
  pc : Plate
  word : Option Plate
  info : FaultInfo
  deriving DecidableEq, Repr

/-- R30, R32: one entry of the segment table: its length and those of its cells that are not zero, by rising offset.
Every cell below the length that is not listed holds 0 (R41). -/
structure Segment where
  len : Nat
  cells : List (Nat × Plate)
  deriving DecidableEq, Repr

/-- R30, R31: the segment store: the table, indexed by handle, and the pool of abandoned handles, the one abandoned
last first. `table_size` is the number of entries of the table (log 10). -/
structure Memory where
  table : List Segment
  pool : List Plate
  deriving DecidableEq, Repr

/-- D10: which instance of POOL_PICK the machine has: the executable default of the spec (last abandoned first), or the
choice left free (`Config.poolPick`). -/
inductive PoolPick where
  | lifo
  | anyMember
  deriving DecidableEq, Repr

/-- The arguments of R3 (IMAGE apart, which becomes segment 0) and the environment's answers to come, as plain data.
None of it is state of the spec's machine (R24); no instruction changes `input`, `poolPick`, `maxTable` or
`ioMayFail`. -/
structure Env where
  /-- INPUT (R49). -/
  input : List Byte
  /-- POOL_PICK (R40). -/
  poolPick : PoolPick
  /-- MAX_TABLE (R30, R54). -/
  maxTable : Nat
  /-- IO_MAY_FAIL (R48, R49). -/
  ioMayFail : Bool
  /-- The model's own (log 5): which of the coming OUT and IN requests the environment answers with error. -/
  ioErrors : List Bool
  /-- The model's own (log 6): at which coming allocations the host cannot hold the plates (R54). -/
  allocFailures : List Bool
  /-- The model's own (log 4): how many draws from the pool have been made. -/
  poolDraws : Nat
  deriving DecidableEq, Repr

/-- R24: the whole state of the machine, with the environment's arguments beside it. -/
structure State where
  /-- R11: the eight registers. -/
  x : Vector Plate 8
  /-- R13. -/
  pc : Plate
  /-- R16. -/
  run : RunState
  /-- R17. -/
  fault : Option FaultRecord
  /-- R21: `seg`, `table_size` and `pool`. -/
  mem : Memory
  /-- R22, R48: the bytes delivered, in order. -/
  out : List Byte
  /-- R22, R49: the position in INPUT. -/
  inPos : Nat
  /-- R3: the arguments. -/
  env : Env
  deriving DecidableEq, Repr

/-- Why a step has no successor. The spec's own faults are not here: they are next states with `run` FAULTED (log 2). -/
inductive Fault where
  /-- Raised by `step` when the machine is HALTED: "there is no step" (R80, R16); the state stays as it is. Safe. -/
  | machineHalted
  /-- Raised by `step` when the machine is FAULTED: "there is no step" (R80, R144); the state stays as it is. Safe. -/
  | machineFaulted
  deriving DecidableEq, Repr

/-- Why the model gives a step no meaning. -/
inductive Refusal where
  /-- Raised by exec's arm of an instruction that has no meaning yet; no arm raises it in this model. Safe. -/
  | notModelled (mnemonic : String)
  /-- Raised by ALLOC when the pool is empty and the table has MAX_TABLE entries (R54, D18, U8). Safe. -/
  | segmentTableFull
  /-- Raised by ALLOC when the host cannot hold the plates (R54, D18, U8). Safe. -/
  | hostOutOfMemory
  deriving DecidableEq, Repr

/-- The arguments of the reset state: the spec's defaults for MAX_TABLE and IO_MAY_FAIL (R3) and for POOL_PICK the
executable default (D10, U7); INPUT and the answers to come are empty (log 4 to 7). -/
def Env.atReset : Env where
  input := []
  poolPick := .lifo
  maxTable := Config.defaultMaxTable
  ioMayFail := Config.defaultIoMayFail
  ioErrors := []
  allocFailures := []
  poolDraws := 0

/-- The machine right after reset (R161 to R165) with the empty IMAGE: the program is the loader's (log 1).
Reset with any other image is `State.resetWith` (Machine/Loader.lean). -/
def State.reset : State where
  x := Vector.replicate 8 0
  pc := 0
  run := .running
  fault := none
  mem := { table := [{ len := 0, cells := [] }], pool := [] }
  out := []
  inPos := 0
  env := Env.atReset

end Sys2Proof.Machine
end

