-- ==== Sys2Proof/Machine/Flags.lean ====
section
/-! DEFINITION. There are no flags, condition codes or predicate registers (spec/10_state.md R19), so nothing here
computes one. The only test of the machine is the comparison of a plate with zero (spec/42_arith.md R101). -/

namespace Sys2Proof.Machine

/-- R101: whether all 32 bits are 0; used by CMOV, DIV and LOADPROG. -/
def isZero (v : Plate) : Bool := v == 0

end Sys2Proof.Machine
end

