-- ==== Sys2Proof/Machine/Alu.lean ====
section
/-! DEFINITION. The arithmetic unit, the third of the four blocks (spec/42_arith.md R99, R100): four functions of two
plates, wrapping, unsigned, with no state. -/

namespace Sys2Proof.Machine

/-- R99: `(a + b) mod 2^32`, computed exactly and then narrowed. -/
def aluAdd (a b : Plate) : Plate := BitVec.ofNat 32 (a.toNat + b.toNat)

/-- R99: `(a * b) mod 2^32`, computed exactly and then narrowed. -/
def aluMul (a b : Plate) : Plate := BitVec.ofNat 32 (a.toNat * b.toNat)

/-- R99: the floor of the quotient, or the error DivideByZero. -/
def aluDiv (a b : Plate) : Except FaultCause Plate :=
  if isZero b then .error ⟨.divideByZero, .absent⟩ else .ok (BitVec.ofNat 32 (a.toNat / b.toNat))

/-- R99: every bit of `a AND b` inverted. -/
def aluNand (a b : Plate) : Plate := ~~~(a &&& b)

end Sys2Proof.Machine
end

