-- ==== Sys2Proof/WellFormed.lean ====
section
/-! DEFINITION. The checks on terms: an instruction is one of the fourteen legal ones (spec/30_encoding.md R64, R70), an
image's byte count is a multiple of 4 and an image fits a segment (spec/20_memory.md R52, R32).
Register indices and the immediate need no check: their types hold exactly the values the fields can have (R66, R67). -/

namespace Sys2Proof

/-- R64: "Values 0–13 map to the 14 instruction kinds ...; any other value is illegal." -/
def Instr.wellFormed : Instr → Bool
  | .cmov _ _ _ => true
  | .aidx _ _ _ => true
  | .amend _ _ _ => true
  | .add _ _ _ => true
  | .mul _ _ _ => true
  | .div _ _ _ => true
  | .nand _ _ _ => true
  | .halt => true
  | .alloc _ _ => true
  | .aband _ => true
  | .out _ => true
  | .inp _ => true
  | .loadprog _ _ => true
  | .ortho _ _ => true
  | .illegal14 _ => false
  | .illegal15 _ => false

/-- R52: "The byte count must be a multiple of 4". -/
def wellFormedImageBytes (bytes : List Byte) : Bool := bytes.length % 4 == 0

/-- R32: a program image has between 0 and 2^32 - 1 plates. -/
def wellFormedImage (image : List Plate) : Bool := decide (image.length ≤ maxSegmentLength)

end Sys2Proof
end

