-- ==== Sys2Proof/Decode.lean ====
section
/-! DEFINITION. The decoder, the first of the four blocks (spec/30_encoding.md R60 to R73), and after it the encoder
(R75). Both are total. The decoder signals a decode error (R70) by the two illegal constructors, whose meaning raises
the DecodeError fault (log 11). -/

namespace Sys2Proof

/-! ### Fields (R62, R63, R64): extracted from every word, whatever the opcode (R65, D24) -/

/-- R64: the opcode is `w[31:28]`. -/
def opcodeField (w : Plate) : BitVec 4 := w.extractLsb' 28 4

/-- R62: `A = w[8:6]`. -/
def fieldA (w : Plate) : RegIdx := w.extractLsb' 6 3

/-- R62: `B = w[5:3]`. -/
def fieldB (w : Plate) : RegIdx := w.extractLsb' 3 3

/-- R62: `C = w[2:0]`. -/
def fieldC (w : Plate) : RegIdx := w.extractLsb' 0 3

/-- R63: `T = w[27:25]`. -/
def fieldT (w : Plate) : RegIdx := w.extractLsb' 25 3

/-- R63: `imm = w[24:0]`. -/
def fieldImm (w : Plate) : Imm := w.extractLsb' 0 25

/-- R70: the other 28 bits of an illegal word. -/
def fieldRest (w : Plate) : BitVec 28 := w.extractLsb' 0 28

/-! ### The decode function (R65) -/

/-- R65: the instruction that opcode `op` selects from the fields of a word; bits 27:9 of a format-S word and unused
operand fields are ignored (R68, R69). The opcode is 4 bits wide, so for a word's own opcode the last arm is opcode 15
and nothing else. -/
def decodeAs (op : Nat) (w : Plate) : Instr :=
  match op with
  | 0 => .cmov (fieldA w) (fieldB w) (fieldC w)
  | 1 => .aidx (fieldA w) (fieldB w) (fieldC w)
  | 2 => .amend (fieldA w) (fieldB w) (fieldC w)
  | 3 => .add (fieldA w) (fieldB w) (fieldC w)
  | 4 => .mul (fieldA w) (fieldB w) (fieldC w)
  | 5 => .div (fieldA w) (fieldB w) (fieldC w)
  | 6 => .nand (fieldA w) (fieldB w) (fieldC w)
  | 7 => .halt
  | 8 => .alloc (fieldB w) (fieldC w)
  | 9 => .aband (fieldC w)
  | 10 => .out (fieldC w)
  | 11 => .inp (fieldC w)
  | 12 => .loadprog (fieldB w) (fieldC w)
  | 13 => .ortho (fieldT w) (fieldImm w)
  | 14 => .illegal14 (fieldRest w)
  | _ => .illegal15 (fieldRest w)

/-- R65: `decode`, a total function of the word alone. -/
def decode (w : Plate) : Instr := decodeAs (opcodeField w).toNat w

/-! ### Bytes: the loader boundary, the only place with a byte order (R39, R52) -/

/-- R52: a plate from four bytes, big-endian: the first byte is bits 31:24. -/
def plateOfBytes (b0 b1 b2 b3 : Byte) : Plate :=
  BitVec.ofNat 32 (b0.toNat * 16777216 + b1.toNat * 65536 + b2.toNat * 256 + b3.toNat)

/-- R52: the four bytes of a plate, big-endian. -/
def bytesOfPlate (w : Plate) : List Byte :=
  [w.extractLsb' 24 8, w.extractLsb' 16 8, w.extractLsb' 8 8, w.extractLsb' 0 8]

/-- Why a byte sequence holds no instruction: fewer than the four bytes of one plate are left (R60). -/
inductive DecodeReject where
  | notOnePlate
  deriving DecidableEq, Repr

/-- The instruction at the head of a byte sequence, and the bytes after it (R60: always one plate). -/
def decodeBytes : List Byte → Except DecodeReject (Instr × List Byte)
  | b0 :: b1 :: b2 :: b3 :: rest => .ok (decode (plateOfBytes b0 b1 b2 b3), rest)
  | [] => .error .notOnePlate
  | [_] => .error .notOnePlate
  | [_, _] => .error .notOnePlate
  | [_, _, _] => .error .notOnePlate

/-- The decoder on a word numbered as spec/opcode_table.json numbers it: `w`'s low `nbits` bits, the bits above them 0.
No instruction is longer than one plate (R60). -/
def decodeTableWord (nbits w : Nat) : Option Instr :=
  if nbits ≤ 32 then some (decode (BitVec.ofNat 32 (w % 2 ^ nbits))) else none

/-! ### The encoder (R75): the canonical word, zero in every unused bit and every unused operand field -/

/-- R75: `encodeS(op, A, B, C) = op·2^28 + A·2^6 + B·2^3 + C`, so bits 27:9 are zero. -/
def encodeS (op : BitVec 4) (a b c : RegIdx) : Plate :=
  BitVec.ofNat 32 (op.toNat * 268435456 + a.toNat * 64 + b.toNat * 8 + c.toNat)

/-- R75: `encodeL(T, imm) = 13·2^28 + T·2^25 + imm`. -/
def encodeL (t : RegIdx) (imm : Imm) : Plate :=
  BitVec.ofNat 32 (3489660928 + t.toNat * 33554432 + imm.toNat)

/-- The illegal word with opcode `op`, 14 or 15 (R70), and `rest` in bits 27:0. R75 defines no encoding for it: this one
is the model's (log 11). -/
def encodeIllegal (op : BitVec 4) (rest : BitVec 28) : Plate :=
  BitVec.ofNat 32 (op.toNat * 268435456 + rest.toNat)

/-- The canonical word of an instruction (R75); of an illegal row its opcode and its other bits (the model's, log 11). -/
def encode : Instr → Plate
  | .cmov a b c => encodeS 0 a b c
  | .aidx a b c => encodeS 1 a b c
  | .amend a b c => encodeS 2 a b c
  | .add a b c => encodeS 3 a b c
  | .mul a b c => encodeS 4 a b c
  | .div a b c => encodeS 5 a b c
  | .nand a b c => encodeS 6 a b c
  | .halt => encodeS 7 0 0 0
  | .alloc b c => encodeS 8 0 b c
  | .aband c => encodeS 9 0 0 c
  | .out c => encodeS 10 0 0 c
  | .inp c => encodeS 11 0 0 c
  | .loadprog b c => encodeS 12 0 b c
  | .ortho t imm => encodeL t imm
  | .illegal14 rest => encodeIllegal 14 rest
  | .illegal15 rest => encodeIllegal 15 rest

/-- The canonical instruction as the loader's bytes (R52, R75). -/
def encodeBytes (i : Instr) : List Byte := bytesOfPlate (encode i)

end Sys2Proof
end

