-- ==== Sys2Proof/Machine/Memory.lean ====
section
/-! DEFINITION. The segment store (spec/20_memory.md R30 to R44): cells in one canonical form, segments, the handle and
offset checks, and the transactions of IF-FETCH, IF-MEM and IF-SEG on it. -/

namespace Sys2Proof.Machine

/-! ### Cells: offset and value pairs, offsets strictly rising, no value 0 -/

/-- What a cell that is not listed holds: the zero every segment is created with (R41). -/
def unlistedCell : Plate := 0

/-- The value at offset `j`. -/
def cellsGet : List (Nat × Plate) → Nat → Plate
  | [], _ => unlistedCell
  | (k, v) :: rest, j => if k = j then v else cellsGet rest j

/-- Put `v` at offset `j`, keeping the form; writing the unlisted value removes the entry. -/
def cellsPut (j : Nat) (v : Plate) : List (Nat × Plate) → List (Nat × Plate)
  | [] => if v = unlistedCell then [] else [(j, v)]
  | (k, u) :: rest =>
    if j < k then (if v = unlistedCell then (k, u) :: rest else (j, v) :: (k, u) :: rest)
    else if j = k then (if v = unlistedCell then rest else (j, v) :: rest)
    else (k, u) :: cellsPut j v rest

/-- The cells of a sequence of plates whose first one has offset `j`. -/
def cellsFrom (j : Nat) : List Plate → List (Nat × Plate)
  | [] => []
  | v :: rest => if v = unlistedCell then cellsFrom (j + 1) rest else (j, v) :: cellsFrom (j + 1) rest

/-- The canonical form: offsets from `lo` on, strictly rising, below `len`, and no entry equal to the unlisted value. -/
def cellsWf (lo len : Nat) : List (Nat × Plate) → Bool
  | [] => true
  | (k, v) :: rest => decide (lo ≤ k) && decide (k < len) && decide (v ≠ unlistedCell) && cellsWf (k + 1) len rest

/-! ### Segments -/

/-- The plate in cell `j` of a segment. -/
def Segment.get (sg : Segment) (j : Plate) : Plate := cellsGet sg.cells j.toNat

/-- The segment with `v` in cell `j`; its length does not change (R38). -/
def Segment.put (sg : Segment) (j v : Plate) : Segment := { sg with cells := cellsPut j.toNat v sg.cells }

/-- R40, R41: a fresh segment of `len` plates, each 0. -/
def Segment.zeros (len : Plate) : Segment := { len := len.toNat, cells := [] }

/-- What the table holds for an abandoned handle: nothing that an access could show (R43, U5; log 8). -/
def Segment.discarded : Segment := { len := 0, cells := [] }

/-- R164: the segment that holds a sequence of plates. -/
def Segment.ofPlates (ps : List Plate) : Segment := { len := ps.length, cells := cellsFrom 0 ps }

/-- The segment as the spec writes it, `[seg[h][0], ..., seg[h][len - 1]]` (R30). -/
def Segment.toPlates (sg : Segment) : List Plate := (List.range sg.len).map (cellsGet sg.cells)

/-- R32 and the canonical form of the cells. -/
def Segment.wf (sg : Segment) : Bool := decide (sg.len ≤ maxSegmentLength) && cellsWf 0 sg.len sg.cells

/-! ### The table and the pool -/

/-- R30: `table_size`. -/
def Memory.tableSize (m : Memory) : Nat := m.table.length

/-- R31: "A handle `h` is allocated when `h < table_size` and `h` is not in `pool`". -/
def Memory.allocated (m : Memory) (h : Plate) : Bool := decide (h.toNat < m.tableSize) && !m.pool.contains h

/-- The entry of the table for handle `h`; a handle at or above `table_size` has no entry and no cells. -/
def Memory.seg (m : Memory) (h : Plate) : Segment := m.table[h.toNat]?.getD Segment.discarded

/-- R30: `len(h)`. -/
def Memory.len (m : Memory) (h : Plate) : Nat := (m.seg h).len

/-- Replace the entry of handle `h`. -/
def Memory.setSeg (m : Memory) (h : Plate) (sg : Segment) : Memory := { m with table := m.table.set h.toNat sg }

/-- The entries of the pool: each an entry of the table whose contents are discarded, none 0, none twice (R31). -/
def Memory.poolWf (m : Memory) : Bool :=
  m.pool.all (fun h => decide (h ≠ 0) && decide (h.toNat < m.tableSize) && decide (m.seg h = Segment.discarded))
    && decide m.pool.Nodup

/-- The canonical form of the segment store with the invariants of R30, R31 and R32. -/
def Memory.wf (m : Memory) : Bool :=
  decide (1 ≤ m.tableSize) && m.table.all Segment.wf && m.poolWf

/-! ### The transactions -/

/-- R36: `Fetch(pc)`. -/
def fetchPlate (m : Memory) (pc : Plate) : Except FaultCause Plate :=
  if m.len 0 ≤ pc.toNat then .error ⟨.oobPc, .pc pc⟩ else .ok ((m.seg 0).get pc)

/-- R35: the two checks that guard every access, in their order. -/
def checkAccess (m : Memory) (h j : Plate) : Except FaultCause Unit :=
  if m.allocated h = false then .error ⟨.oobSegment, .handle h⟩
  else if m.len h ≤ j.toNat then .error ⟨.oobCell, .cell h j⟩
  else .ok ()

/-- R37: `MemRead((h, j), 1)`. -/
def memRead (m : Memory) (h j : Plate) : Except FaultCause Plate :=
  match checkAccess m h j with
  | .error e => .error e
  | .ok _ => .ok ((m.seg h).get j)

/-- R38: `MemWrite((h, j), 1, v)`. -/
def memWrite (m : Memory) (h j v : Plate) : Except FaultCause Memory :=
  match checkAccess m h j with
  | .error e => .error e
  | .ok _ => .ok (m.setSeg h ((m.seg h).put j v))

/-- R40: the reuse branch of SegAlloc, for a member `h` of the pool. -/
def Memory.reuse (m : Memory) (h len : Plate) : Memory :=
  { (m.setSeg h (Segment.zeros len)) with pool := m.pool.filter (fun k => decide (k ≠ h)) }

/-- R40, D9: the handle of a new entry is `table_size`. -/
def Memory.newHandle (m : Memory) : Plate := BitVec.ofNat 32 m.tableSize

/-- R40: the growth branch of SegAlloc: append an entry. -/
def Memory.grow (m : Memory) (len : Plate) : Memory := { m with table := m.table ++ [Segment.zeros len] }

/-- R42: `SegAbandon(h)`; handle 0, a handle never allocated and a handle already abandoned fault (D8). -/
def segAbandon (m : Memory) (h : Plate) : Except FaultCause Memory :=
  if h = 0 then .error ⟨.oobSegment, .handle h⟩
  else if m.allocated h = false then .error ⟨.oobSegment, .handle h⟩
  else .ok { (m.setSeg h Segment.discarded) with pool := h :: m.pool }

/-- R44: `SegLoadProgram(h)`: segment 0 becomes a copy of segment `h`. -/
def segLoadProgram (m : Memory) (h : Plate) : Except FaultCause Memory :=
  if m.allocated h = false then .error ⟨.oobSegment, .handle h⟩
  else .ok (m.setSeg 0 (m.seg h))

/-- D10: the position in a non-empty pool that POOL_PICK takes; the free choice is cut to the pool's length, so that it
is always a member. -/
def poolPosition (env : Env) (pool : List Plate) : Nat :=
  match env.poolPick with
  | .lifo => 0
  | .anyMember => Config.poolPick env.poolDraws pool % pool.length

/-- R40: `POOL_PICK(pool)` of a pool whose first member is `first`. -/
def poolMember (env : Env) (first : Plate) (others : List Plate) : Plate :=
  (first :: others).getD (poolPosition env (first :: others)) first

end Sys2Proof.Machine
end

