-- ==== Sys2Proof/Machine/Operands.lean ====
section
/-! DEFINITION. The operand forms: a register (spec/10_state.md R11, R12), the immediate (spec/30_encoding.md R67), and
the narrowing and widening at the byte interfaces (spec/20_memory.md R46). -/

namespace Sys2Proof.Machine

/-- `x[i]`: the value of a register; none is hardwired (R11). -/
def readReg (s : State) (i : RegIdx) : Plate := s.x[i.toNat]'i.isLt

/-- `x[i] <- v`: the one write port of the register file (R12). -/
def writeReg (i : RegIdx) (v : Plate) (s : State) : State := { s with x := s.x.set i.toNat v i.isLt }

/-- R67: `zext_32(imm)`. -/
def immediate (imm : Imm) : Plate := imm.setWidth 32

/-- R46, R115: OUT narrows a plate to its low 8 bits. -/
def lowByte (v : Plate) : Byte := v.setWidth 8

/-- R46, R116: IN widens a byte with zeros. -/
def widenByte (b : Byte) : Plate := b.setWidth 32

/-- R116: what IN writes at end of input. -/
def endOfInputValue : Plate := 0xFFFFFFFF

end Sys2Proof.Machine
end

