-- ==== Sys2Proof/Machine/Ops.lean ====
section
/-! DEFINITION. The named operations over the state: taking a fault (spec/60_exceptions.md R134), fetching
(spec/40_cycle.md R81), the allocate transaction (spec/20_memory.md R40, R54), the byte sink and source (R48, R49), the
sequencer's writes of `pc` (spec/10_state.md R14) and what the host can do (spec/70_reset_and_hazards.md R160). There is
no return from a fault (R144). -/

namespace Sys2Proof.Machine

/-- What one instruction answers. -/
abbrev Result := Host.Outcome State Fault Refusal

/-! ### Faults -/

/-- R131: the numeric code of a fault kind; 0 is "no fault recorded". -/
def FaultKind.code : FaultKind → Nat
  | .decodeError => 1
  | .oobPc => 2
  | .oobSegment => 3
  | .oobCell => 4
  | .divideByZero => 5
  | .ioError => 6
  | .oobRegister => 7

/-- R131: the code the host reads of a fault record that may be absent. -/
def faultCode : Option FaultRecord → Nat
  | none => 0
  | some r => r.kind.code

/-- R134: fault entry. The record is written, the run state becomes FAULTED, nothing else changes. -/
def raiseFault (cause : FaultCause) (word : Option Plate) (s : State) : State :=
  { s with
    fault := some { kind := cause.kind, pc := s.pc, word := word, info := cause.info }
    run := .faulted }

/-- R81: the fetch of the cycle, `Fetch(pc)` of R36. -/
def fetch (s : State) : Except FaultCause Plate := fetchPlate s.mem s.pc

/-- The word of the instruction being executed, for the fault record (R17). Every check of an instruction comes before
its first write (R134), so the cell at `pc` still holds the word the cycle fetched (log 3). -/
def currentWord (s : State) : Option Plate :=
  match fetch s with
  | .ok w => some w
  | .error _ => none

/-- R83: a fault raised while an instruction executes. -/
def raiseInExecute (cause : FaultCause) (s : State) : State := raiseFault cause (currentWord s) s

/-- An instruction whose one transaction answered: on an error it takes the fault (R134), else it goes on. -/
def orFault {α : Type} (answer : Except FaultCause α) (s : State) (goOn : α → State) : Result :=
  match answer with
  | .error cause => .next (raiseInExecute cause s)
  | .ok v => .next (goOn v)

/-! ### The sequencer -/

/-- R14, R122: LOADPROG's write of `pc`. -/
def setPc (t : Plate) (s : State) : State := { s with pc := t }

/-- R84: `pc <- pc + 1`, unless the machine has stopped or the instruction was LOADPROG. -/
def advance (i : Instr) (s : State) : State :=
  match s.run with
  | .running => if i.isLoadprog then s else setPc (s.pc + 1) s
  | .halted => s
  | .faulted => s

/-- R120: `halt`. -/
def stopRunning (s : State) : State := { s with run := .halted }

/-! ### The segment store of the state -/

/-- Replace the segment store. -/
def setMem (m : Memory) (s : State) : State := { s with mem := m }

/-- R54: the environment answers an allocation request: whether the host can hold the plates. The answer is used up. -/
def takeAllocAnswer (s : State) : Bool × State :=
  (s.env.allocFailures.headD false, { s with env := { s.env with allocFailures := s.env.allocFailures.tail } })

/-- The model's own counter of draws (log 4). -/
def countDraw (s : State) : State := { s with env := { s.env with poolDraws := s.env.poolDraws + 1 } }

/-- R40: `SegAlloc(len)` once the host can hold the plates: reuse before growth, refusal when the table is full. -/
def segAllocHeld (len : Plate) (s : State) : Except Refusal (Plate × State) :=
  match s.mem.pool with
  | first :: others =>
    let h := poolMember s.env first others
    .ok (h, countDraw (setMem (s.mem.reuse h len) s))
  | [] =>
    if s.env.maxTable ≤ s.mem.tableSize then .error .segmentTableFull
    else .ok (s.mem.newHandle, setMem (s.mem.grow len) s)

/-- R40, R54: `SegAlloc(len)`: the handle and the state after, or a refusal. It raises no fault. -/
def segAlloc (len : Plate) (s : State) : Except Refusal (Plate × State) :=
  match takeAllocAnswer s with
  | (true, _) => .error .hostOutOfMemory
  | (false, s1) => segAllocHeld len s1

/-! ### The byte sink and the byte source -/

/-- What the sink answers (R48). -/
inductive OutAnswer where
  | done
  | error
  deriving DecidableEq, Repr

/-- What the source answers (R49). -/
inductive InAnswer where
  | byte (b : Byte)
  | endOfInput
  | error
  deriving DecidableEq, Repr

/-- R48, R49, D15: whether the environment answers the coming request with error, which it can do only when IO_MAY_FAIL
is true. -/
def ioFails (s : State) : Bool := s.env.ioMayFail && s.env.ioErrors.headD false

/-- The environment's answer is used up by the request (log 5). -/
def useIoAnswer (s : State) : State := { s with env := { s.env with ioErrors := s.env.ioErrors.tail } }

/-- R48: `Out(b)` appends the byte, or answers error and appends nothing. -/
def outRequest (b : Byte) (s : State) : OutAnswer × State :=
  if ioFails s then (.error, s) else (.done, useIoAnswer { s with out := s.out ++ [b] })

/-- R49: `In()` answers the byte at `in_pos` and moves on, or end-of-input for ever, or error. -/
def inRequest (s : State) : InAnswer × State :=
  if ioFails s then (.error, s)
  else match s.env.input[s.inPos]? with
    | some b => (.byte b, useIoAnswer { s with inPos := s.inPos + 1 })
    | none => (.endOfInput, useIoAnswer s)

/-! ### Reset and the host -/

/-- R160 to R165: the machine after reset with a program image and the environment's arguments. -/
def State.resetWith (image : List Plate) (env : Env) : State where
  x := Vector.replicate 8 0
  pc := 0
  run := .running
  fault := none
  mem := { table := [Segment.ofPlates image], pool := [] }
  out := []
  inPos := 0
  env := env

/-- R160, R168: the IF-CTL reset transaction, in any run state: it discards everything. -/
def ctlReset (image : List Plate) (env : Env) (_before : State) : State := State.resetWith image env

/-- R16, R17, D27: what the host can read of the machine at any time. -/
def ctlRead (s : State) : RunState × Option FaultRecord := (s.run, s.fault)

end Sys2Proof.Machine
end

