-- ==== Sys2Proof/Machine/Arith.lean ====
section
/-! DEFINITION. The instructions of the arithmetic unit: ADD, MUL, DIV, NAND (spec/42_arith.md R95 to R98). -/

namespace Sys2Proof.Machine

/-- R95: `x[A] <- (x[B] + x[C]) mod 2^32`. -/
def execAdd (a b c : RegIdx) (s : State) : Result := .next (writeReg a (aluAdd (readReg s b) (readReg s c)) s)

/-- R96: `x[A] <- (x[B] * x[C]) mod 2^32`. -/
def execMul (a b c : RegIdx) (s : State) : Result := .next (writeReg a (aluMul (readReg s b) (readReg s c)) s)

/-- R97: `if x[C] = 0 then raise DivideByZero`, else `x[A] <- x[B] div x[C]`. -/
def execDiv (a b c : RegIdx) (s : State) : Result :=
  orFault (aluDiv (readReg s b) (readReg s c)) s (fun q => writeReg a q s)

/-- R98: `x[A] <- NOT (x[B] AND x[C])`. -/
def execNand (a b c : RegIdx) (s : State) : Result := .next (writeReg a (aluNand (readReg s b) (readReg s c)) s)

end Sys2Proof.Machine
end

