-- ==== Sys2Proof/Machine/Array.lean ====
section
/-! DEFINITION. Array access and segment management: AIDX, AMEND, ALLOC, ABAND (spec/43_array.md R105 to R108). -/

namespace Sys2Proof.Machine

/-- R105: `x[A] <- MemRead((x[B], x[C]), 1)`. -/
def execAidx (a b c : RegIdx) (s : State) : Result :=
  orFault (memRead s.mem (readReg s b) (readReg s c)) s (fun v => writeReg a v s)

/-- R106: `MemWrite((x[A], x[B]), 1, x[C])`. -/
def execAmend (a b c : RegIdx) (s : State) : Result :=
  orFault (memWrite s.mem (readReg s a) (readReg s b) (readReg s c)) s (fun m => setMem m s)

/-- R107: `x[B] <- SegAlloc(x[C])`; it never faults and may be refused (R54). -/
def execAlloc (b c : RegIdx) (s : State) : Result :=
  match segAlloc (readReg s c) s with
  | .error r => .refused r
  | .ok (h, t) => .next (writeReg b h t)

/-- R108: `SegAbandon(x[C])`. -/
def execAband (c : RegIdx) (s : State) : Result :=
  orFault (segAbandon s.mem (readReg s c)) s (fun m => setMem m s)

end Sys2Proof.Machine
end

