-- ==== Sys2Proof/Machine/Control.lean ====
section
/-! DEFINITION. Control: HALT, LOADPROG (spec/45_control.md R120, R122), and the two illegal opcodes
(spec/30_encoding.md R70). -/

namespace Sys2Proof.Machine

/-- R120: `run <- HALTED`; the sequencer then holds `pc` (R84). -/
def execHalt (s : State) : Result := .next (stopRunning s)

/-- R122: with `x[B] != 0` segment 0 becomes a copy of segment `x[B]`; then `pc <- x[C]`, unchecked. -/
def execLoadprog (b c : RegIdx) (s : State) : Result :=
  if isZero (readReg s b) then .next (setPc (readReg s c) s)
  else orFault (segLoadProgram s.mem (readReg s b)) s (fun m => setPc (readReg s c) (setMem m s))

/-- R82, R136: the DecodeError fault of a word; the word is recorded whole, `info` is absent. -/
def raiseDecodeError (w : Plate) (s : State) : State := raiseFault ⟨.decodeError, .absent⟩ (some w) s

/-- R70: opcode 14. -/
def execIllegal14 (rest : BitVec 28) (s : State) : Result :=
  .next (raiseDecodeError (encode (.illegal14 rest)) s)

/-- R70: opcode 15. -/
def execIllegal15 (rest : BitVec 28) (s : State) : Result :=
  .next (raiseDecodeError (encode (.illegal15 rest)) s)

end Sys2Proof.Machine
end

