-- ==== Sys2Proof/Machine/InOut.lean ====
section
/-! DEFINITION. Byte output and input: OUT, IN (spec/44_io.md R115, R116). -/

namespace Sys2Proof.Machine

/-- R115: `Out(x[C][7:0])`, IoError if the sink answers error. -/
def execOut (c : RegIdx) (s : State) : Result :=
  match outRequest (lowByte (readReg s c)) s with
  | (.done, t) => .next t
  | (.error, _) => .next (raiseInExecute ⟨.ioError, .absent⟩ s)

/-- R116: `x[C]` gets the byte, zero-extended, or 0xFFFFFFFF at end of input; IoError if the source answers error. -/
def execInp (c : RegIdx) (s : State) : Result :=
  match inRequest s with
  | (.byte b, t) => .next (writeReg c (widenByte b) t)
  | (.endOfInput, t) => .next (writeReg c endOfInputValue t)
  | (.error, _) => .next (raiseInExecute ⟨.ioError, .absent⟩ s)

end Sys2Proof.Machine
end

