-- ==== Sys2Proof/Machine/Move.lean ====
section
/-! DEFINITION. The register moves CMOV and ORTHO (spec/41_move.md R90, R91). -/

namespace Sys2Proof.Machine

/-- R90: `if x[C] != 0 then x[A] <- x[B]`. -/
def execCmov (a b c : RegIdx) (s : State) : Result :=
  if isZero (readReg s c) then .next s else .next (writeReg a (readReg s b) s)

/-- R91: `x[T] <- zext_32(imm)`. -/
def execOrtho (t : RegIdx) (imm : Imm) (s : State) : Result := .next (writeReg t (immediate imm) s)

end Sys2Proof.Machine
end

