-- ==== Sys2Proof/Machine/Cycle.lean ====
section
/-! DEFINITION. The instruction cycle of a running machine (spec/40_cycle.md R80 to R84): fetch, decode, execute,
advance; and placing a word where the next fetch reads it. -/

namespace Sys2Proof.Machine

/-- R83, R84: execute one decoded instruction, then advance `pc`. -/
def execAndAdvance (i : Instr) (s : State) : Result :=
  match exec i s with
  | .next t => .next (advance i t)
  | .fault r => .fault r
  | .refused r => .refused r

/-- R80: one cycle of a machine whose `run` is RUNNING. A fetch fault records no word (R81). -/
def cycle (s : State) : Result :=
  match fetch s with
  | .error cause => .next (raiseFault cause none s)
  | .ok w => execAndAdvance (decode w) s

/-- R80, R16: the step by run state; a HALTED or FAULTED machine has no successor. -/
def stepByRun (s : State) : Result :=
  match s.run with
  | .running => cycle s
  | .halted => .fault .machineHalted
  | .faulted => .fault .machineFaulted

/-- Segment 0 with `w` in the cell at `pc`, made long enough to have that cell. -/
def segmentWithWord (sg : Segment) (pc w : Plate) : Segment :=
  Segment.put { sg with len := max sg.len (pc.toNat + 1) } pc w

/-- The segment store with `w` in the cell at `pc` of segment 0. -/
def memoryWithWord (m : Memory) (pc w : Plate) : Memory :=
  match m.table with
  | [] => { m with table := [segmentWithWord Segment.discarded pc w] }
  | sg :: rest => { m with table := segmentWithWord sg pc w :: rest }

/-- The machine with `w` where its next cycle fetches, running: this stands for the loader's image (log 14). -/
def placeFetchWord (s : State) (w : Plate) : State :=
  { s with run := .running, fault := none, mem := memoryWithWord s.mem s.pc w }

end Sys2Proof.Machine
end

