-- ==== Sys2Proof/Machine/Step.lean ====
section
/-! DEFINITION. The step of the machine (spec/40_cycle.md R80), which calls the cycle, and the placing of a word where
the step fetches. -/

namespace Sys2Proof.Machine

/-- R80: one step. -/
def step (s : State) : Host.Outcome State Fault Refusal := stepByRun s

/-- `s` with the instruction word `w` (its low `nbits` bits, the bits above them 0) where step fetches next. -/
def State.withFetchWord (s : State) (nbits w : Nat) : State :=
  placeFetchWord s (BitVec.ofNat 32 (w % 2 ^ nbits))

end Sys2Proof.Machine
end

