-- ==== Sys2Proof/Machine/Loader.lean ====
section
/-! DEFINITION. The loader boundary (spec/20_memory.md R52, spec/60_exceptions.md R143): from the image's bytes to the
plates of segment 0. It runs before the core is reset; a LoadError is the loader's and no fault of the core. -/

namespace Sys2Proof.Machine

/-- Why the loader hands over no image: a trailing partial word (R52), or more than 2^32 - 1 plates (R32, U18). -/
inductive LoadError where
  | trailingPartialWord
  | imageTooLong
  deriving DecidableEq, Repr

/-- R52: the plates of a byte sequence, big-endian. -/
def platesOfBytes : List Byte → Except LoadError (List Plate)
  | [] => .ok []
  | b0 :: b1 :: b2 :: b3 :: rest =>
    match platesOfBytes rest with
    | .ok ps => .ok (plateOfBytes b0 b1 b2 b3 :: ps)
    | .error e => .error e
  | [_] => .error .trailingPartialWord
  | [_, _] => .error .trailingPartialWord
  | [_, _, _] => .error .trailingPartialWord

/-- R52, R32: the image the loader hands to the core. -/
def loadImage (bytes : List Byte) : Except LoadError (List Plate) :=
  match platesOfBytes bytes with
  | .error e => .error e
  | .ok ps => if wellFormedImage ps then .ok ps else .error .imageTooLong

/-- R160, R143: the machine reset with the image of a byte sequence; with a malformed one no machine state exists. -/
def bootFromBytes (bytes : List Byte) (env : Env) : Except LoadError State :=
  match loadImage bytes with
  | .error e => .error e
  | .ok image => .ok (State.resetWith image env)

end Sys2Proof.Machine
end

