-- ==== Sys2Proof/Safety.lean ====
section
/-! DEFINITION. What the claims are about: the invariant of reachable states (spec/20_memory.md R30 to R32,
spec/10_state.md R16, R17, spec/60_exceptions.md R131, R132), the parts of the state an instruction leaves alone, runs,
and the successful end of a run (R145). -/

namespace Sys2Proof.Machine

/-! ### Which instruction can raise which fault (R132) -/

/-- R132: the fault kinds an instruction can raise while it executes, when its fields and registers allow it at all. -/
def canRaise (i : Instr) (k : FaultKind) : Bool :=
  match i with
  | .cmov _ _ _ => false
  | .aidx _ _ _ => k = .oobSegment || k = .oobCell
  | .amend _ _ _ => k = .oobSegment || k = .oobCell
  | .add _ _ _ => false
  | .mul _ _ _ => false
  | .div _ _ _ => k = .divideByZero
  | .nand _ _ _ => false
  | .halt => false
  | .alloc _ _ => false
  | .aband _ => k = .oobSegment
  | .out _ => k = .ioError
  | .inp _ => k = .ioError
  | .loadprog _ _ => k = .oobSegment
  | .ortho _ _ => false
  | .illegal14 _ => k = .decodeError
  | .illegal15 _ => k = .decodeError

/-- R131: the `info` field has the form its kind gives it. -/
def infoFits (k : FaultKind) (pc : Plate) (info : FaultInfo) : Bool :=
  match k, info with
  | .decodeError, .absent => true
  | .oobPc, .pc t => t = pc
  | .oobSegment, .handle _ => true
  | .oobCell, .cell _ _ => true
  | .divideByZero, .absent => true
  | .ioError, .absent => true
  | _, _ => false

/-- R131, R132: the record's word is absent for a fetch fault and is otherwise a word whose instruction can raise the
kind; `info` fits the kind. No record of kind `oobRegister` fits (R142). -/
def FaultRecord.fits (r : FaultRecord) : Bool :=
  infoFits r.kind r.pc r.info &&
    match r.word with
    | none => r.kind = .oobPc
    | some w => canRaise (decode w) r.kind

/-! ### The invariant -/

/-- The invariant of the states a run can reach. -/
structure StateInv (s : State) : Prop where
  /-- R30, R31, R32 and the canonical form of the cells. -/
  memWf : s.mem.wf = true
  /-- R30: `table_size <= MAX_TABLE`. -/
  tableFits : s.mem.tableSize ≤ s.env.maxTable
  /-- R3, D18: handles are plates, so the table has at most 2^32 entries. -/
  maxTableFits : s.env.maxTable ≤ plateCount
  /-- R49: the input position does not pass the end of INPUT. -/
  inPosFits : s.inPos ≤ s.env.input.length
  /-- R16, R17, R145: there is a fault record exactly when the machine is FAULTED. -/
  faultIff : s.run = .faulted ↔ s.fault.isSome = true
  /-- R131, R134: the record is one the faulting instruction can raise, and its `pc` is where `pc` was held. -/
  recordFits : ∀ r, s.fault = some r → r.pc = s.pc ∧ r.fits = true

/-- R145: "The successful end of a run is `run = HALTED` with `fault = none`". -/
def SuccessfulEnd (s : State) : Prop := s.run = .halted ∧ s.fault = none

/-! ### What an instruction leaves alone -/

/-- Every cell of every segment reads as before, with the same handle and offset checks (R35, R37). -/
def SameCells (s t : State) : Prop := ∀ h j, memRead t.mem h j = memRead s.mem h j

/-- Every register but `i` is unchanged (R12). -/
def SameRegsBut (i : RegIdx) (s t : State) : Prop := ∀ r, r ≠ i → readReg t r = readReg s r

/-- Every register is unchanged. -/
def SameRegs (s t : State) : Prop := ∀ r, readReg t r = readReg s r

/-- The run state and the fault record are unchanged. -/
def SameControl (s t : State) : Prop := t.run = s.run ∧ t.fault = s.fault

/-- The sink, the source and every answer of the environment are unchanged. -/
def SameStreams (s t : State) : Prop := t.out = s.out ∧ t.inPos = s.inPos ∧ t.env = s.env

/-- Nothing but `pc` and the register `i` is changed: no control state, no cell, no table entry, no pool, no stream. -/
def OnlyReg (i : RegIdx) (s t : State) : Prop :=
  SameRegsBut i s t ∧ t.pc = s.pc ∧ SameControl s t ∧ t.mem = s.mem ∧ SameCells s t ∧ SameStreams s t

/-- R134: exactly the fault entry with this record was made: `run` and `fault` changed and nothing else. -/
def OnlyFaulted (cause : FaultCause) (word : Option Plate) (s t : State) : Prop :=
  t.run = .faulted ∧ t.fault = some ⟨cause.kind, s.pc, word, cause.info⟩ ∧
    SameRegs s t ∧ t.pc = s.pc ∧ t.mem = s.mem ∧ SameCells s t ∧ SameStreams s t

/-- R83, R134: the fault entry of an executing instruction; its word is the word the cycle fetched. -/
def FaultedInExecute (cause : FaultCause) (s t : State) : Prop :=
  OnlyFaulted cause (currentWord s) s t ∧ ∀ w, fetch s = .ok w → currentWord s = some w

/-- The registers, `pc`, the control state and the streams are unchanged; the segment store may change. -/
def SameOutsideMemory (s t : State) : Prop := SameRegs s t ∧ t.pc = s.pc ∧ SameControl s t ∧ SameStreams s t

/-- R24, R3: the arguments that no instruction changes. -/
def SameArguments (s t : State) : Prop :=
  t.env.input = s.env.input ∧ t.env.poolPick = s.env.poolPick ∧ t.env.maxTable = s.env.maxTable ∧
    t.env.ioMayFail = s.env.ioMayFail

/-- R75, R73: `n` is the canonical word of `i`, and the decoder reads `i` from it. -/
def CanonicalWord (i : Instr) (n : Nat) : Prop := (encode i).toNat = n ∧ decode (BitVec.ofNat 32 n) = i

/-- R80, R84: the cycle of a running machine whose word is `i` does what `i` did from `s` to `t`, and then adds 1 to
`pc`. -/
def StepAdvances (i : Instr) (s t : State) : Prop :=
  ∀ w, s.run = .running → fetch s = .ok w → decode w = i → step s = .next { t with pc := s.pc + 1 }

/-! ### The tables of the spec that claims compare the machine with -/

/-- R12: the register an instruction may write. -/
def destination : Instr → Option RegIdx
  | .cmov a _ _ => some a
  | .aidx a _ _ => some a
  | .amend _ _ _ => none
  | .add a _ _ => some a
  | .mul a _ _ => some a
  | .div a _ _ => some a
  | .nand a _ _ => some a
  | .halt => none
  | .alloc b _ => some b
  | .aband _ => none
  | .out _ => none
  | .inp c => some c
  | .loadprog _ _ => none
  | .ortho t _ => some t
  | .illegal14 _ => none
  | .illegal15 _ => none

/-- R12: the registers an instruction reads. -/
def sources : Instr → List RegIdx
  | .cmov _ b c => [b, c]
  | .aidx _ b c => [b, c]
  | .amend a b c => [a, b, c]
  | .add _ b c => [b, c]
  | .mul _ b c => [b, c]
  | .div _ b c => [b, c]
  | .nand _ b c => [b, c]
  | .halt => []
  | .alloc _ c => [c]
  | .aband c => [c]
  | .out c => [c]
  | .inp _ => []
  | .loadprog b c => [b, c]
  | .ortho _ _ => []
  | .illegal14 _ => []
  | .illegal15 _ => []

/-- R131, R133: the fault an access to cell `(h, j)` meets first, if any. -/
def accessFault (m : Memory) (h j : Plate) : Option FaultCause :=
  if h.toNat ≥ m.tableSize ∨ h ∈ m.pool then some ⟨.oobSegment, .handle h⟩
  else if j.toNat ≥ m.len h then some ⟨.oobCell, .cell h j⟩
  else none

/-- R131, R132, R137 to R141: the fault an instruction meets while it executes, if any, from the causes of the table. -/
def executeFault (i : Instr) (s : State) : Option FaultCause :=
  match i with
  | .aidx _ b c => accessFault s.mem (readReg s b) (readReg s c)
  | .amend a b _ => accessFault s.mem (readReg s a) (readReg s b)
  | .div _ _ c => if readReg s c = 0 then some ⟨.divideByZero, .absent⟩ else none
  | .aband c =>
    if readReg s c = 0 ∨ (readReg s c).toNat ≥ s.mem.tableSize ∨ readReg s c ∈ s.mem.pool then
      some ⟨.oobSegment, .handle (readReg s c)⟩
    else none
  | .loadprog b _ =>
    if readReg s b ≠ 0 ∧ ((readReg s b).toNat ≥ s.mem.tableSize ∨ readReg s b ∈ s.mem.pool) then
      some ⟨.oobSegment, .handle (readReg s b)⟩
    else none
  | .out _ => if s.env.ioMayFail = true ∧ s.env.ioErrors.head? = some true then some ⟨.ioError, .absent⟩ else none
  | .inp _ => if s.env.ioMayFail = true ∧ s.env.ioErrors.head? = some true then some ⟨.ioError, .absent⟩ else none
  | .illegal14 _ => some ⟨.decodeError, .absent⟩
  | .illegal15 _ => some ⟨.decodeError, .absent⟩
  | .cmov _ _ _ => none
  | .add _ _ _ => none
  | .mul _ _ _ => none
  | .nand _ _ _ => none
  | .halt => none
  | .alloc _ _ => none
  | .ortho _ _ => none

/-- R133: the first fault a cycle meets, and the word it records: the fetch bound, then the instruction's own. -/
def cycleFault (s : State) : Option (FaultCause × Option Plate) :=
  if s.pc.toNat ≥ s.mem.len 0 then some (⟨.oobPc, .pc s.pc⟩, none)
  else
    let w := (s.mem.seg 0).get s.pc
    (executeFault (decode w) s).map (fun c => (c, some w))

/-- R75: whether a word is the canonical one of its instruction: every unused bit and unused operand field is 0. -/
def isCanonical (w : Plate) : Bool :=
  match (opcodeField w).toNat with
  | 7 => decide (w.toNat % 268435456 = 0)
  | 8 => decide (w.toNat % 268435456 < 64)
  | 9 => decide (w.toNat % 268435456 < 8)
  | 10 => decide (w.toNat % 268435456 < 8)
  | 11 => decide (w.toNat % 268435456 < 8)
  | 12 => decide (w.toNat % 268435456 < 64)
  | 13 => true
  | 14 => true
  | 15 => true
  | _ => decide (w.toNat % 268435456 < 512)

/-! ### Runs -/

/-- `t` is reached from `s` by `k` steps. -/
def Reaches (k : Nat) (s t : State) : Prop := Sys2Proof.core.run k s = .next t

end Sys2Proof.Machine
end

