-- ==== Sys2Proof/Certificates/Slice0/Obligations.lean ====
section
/-! DEFINITION. The statements for the provers, from the numbered rules of spec/. A clause that rests on a decision of
the spec (D<n>) or on an entry of the assumption log says so in its docstring. -/

open Sys2Proof Sys2Proof.Machine

/-! ### Encoding -/

/-- R75 (round trip, an inference of the spec): decoding the encoded word of an instruction gives it back, for the
fourteen instructions. R75 defines no encoding for opcodes 14 and 15: that the illegal words too have constructors, an
encoding and a round trip is the model's choice (log 11, DESIGN CHOICE). -/
def Obligations.DecodeOfEncodeGivesInstructionBack : Prop := ∀ i : Instr, decode (encode i) = i

/-- R75 (the converse, an inference of the spec), for opcodes 0 to 13: a word is the encoding of its instruction exactly
when its unused bits and unused operand fields are 0; for format L always. That it always is for the illegal words
(opcodes 14 and 15) is the model's choice of their encoding (log 11, DESIGN CHOICE) and not R75. -/
def Obligations.EncodeOfDecodeIffCanonical : Prop := ∀ w : Plate, encode (decode w) = w ↔ isCanonical w = true

/-- R68: bits 27:9 of a format-S word are ignored. (Decision D23 of the spec.) -/
def Obligations.FormatSDependsOnOpcodeAndLowNineBits : Prop :=
  ∀ w v : Plate, (opcodeField w).toNat ≤ 12 → opcodeField v = opcodeField w → v.toNat % 512 = w.toNat % 512 →
    decode v = decode w

/-- R69 (an inference of the spec): the fields an instruction does not use are ignored: all of A, B, C for HALT; A for
ALLOC and LOADPROG; A and B for ABAND, OUT and IN. -/
def Obligations.UnusedOperandFieldsIgnored : Prop :=
  ∀ w v : Plate, opcodeField v = opcodeField w →
    ((opcodeField w).toNat = 7 → decode v = decode w) ∧
    ((opcodeField w).toNat = 8 ∨ (opcodeField w).toNat = 12 → fieldB v = fieldB w → fieldC v = fieldC w →
      decode v = decode w) ∧
    ((opcodeField w).toNat = 9 ∨ (opcodeField w).toNat = 10 ∨ (opcodeField w).toNat = 11 → fieldC v = fieldC w →
      decode v = decode w)

/-- R62, R63, R64: the fields are the bit ranges of the two formats. -/
def Obligations.FieldsAreBitRanges : Prop :=
  ∀ w : Plate,
    (opcodeField w).toNat = w.toNat / 2 ^ 28 ∧ (fieldA w).toNat = w.toNat / 2 ^ 6 % 8 ∧
    (fieldB w).toNat = w.toNat / 2 ^ 3 % 8 ∧ (fieldC w).toNat = w.toNat % 8 ∧
    (fieldT w).toNat = w.toNat / 2 ^ 25 % 8 ∧ (fieldImm w).toNat = w.toNat % 2 ^ 25

/-- Words written out from R62, R63, R75 and the vectors DE1 to DE23 of 95_test_vectors.md. The last is no instruction
(R70: decode never returns a value there): that it decodes to the constructor `illegal14` is the model's choice (log 11,
DESIGN CHOICE). -/
def Obligations.WordsOfEveryFamilyDecode : Prop :=
  decode 0b0000_0000000000000000000_001_010_011#32 = .cmov 1 2 3 ∧
  decode 0b0010_0000000000000000000_110_001_010#32 = .amend 6 1 2 ∧
  decode 0b0011_1111111111111111111_001_010_011#32 = .add 1 2 3 ∧
  decode 0b1010_0000000000000000000_000_000_111#32 = .out 7 ∧
  decode 0b1100_0000000000000000000_000_000_100#32 = .loadprog 0 4 ∧
  decode 0b1101_111_0000000000000000000101010#32 = .ortho 7 42 ∧
  decode 0b1110_0000000000000000000000000000#32 = .illegal14 0

/-! ### The register moves -/

/-- R90. -/
def Obligations.CmovMovesWhenConditionNonzero : Prop :=
  ∀ (a b c : RegIdx) (s : State),
    CanonicalWord (.cmov a b c) (a.toNat * 64 + b.toNat * 8 + c.toNat) ∧
    (∀ w, (opcodeField w).toNat = 0 → decode w = .cmov (fieldA w) (fieldB w) (fieldC w)) ∧
    ∃ t, exec (.cmov a b c) s = .next t ∧
      readReg t a = (if (readReg s c).toNat ≠ 0 then readReg s b else readReg s a) ∧ OnlyReg a s t ∧
      StepAdvances (.cmov a b c) s t

/-- R91. -/
def Obligations.OrthoLoadsZeroExtendedImmediate : Prop :=
  ∀ (r : RegIdx) (imm : Imm) (s : State),
    CanonicalWord (.ortho r imm) (13 * 268435456 + r.toNat * 33554432 + imm.toNat) ∧
    (∀ w, (opcodeField w).toNat = 13 → decode w = .ortho (fieldT w) (fieldImm w)) ∧
    ∃ t, exec (.ortho r imm) s = .next t ∧ (readReg t r).toNat = imm.toNat ∧ OnlyReg r s t ∧
      StepAdvances (.ortho r imm) s t

/-! ### The arithmetic unit -/

/-- R99. -/
def Obligations.ArithmeticUnitFunctions : Prop :=
  ∀ a b : Plate,
    (aluAdd a b).toNat = (a.toNat + b.toNat) % 2 ^ 32 ∧
    (aluMul a b).toNat = a.toNat * b.toNat % 2 ^ 32 ∧
    (b ≠ 0 → ∃ q : Plate, aluDiv a b = .ok q ∧ q.toNat = a.toNat / b.toNat) ∧
    aluDiv a 0 = .error ⟨.divideByZero, .absent⟩ ∧
    (aluNand a b).toNat = 2 ^ 32 - 1 - (a &&& b).toNat

/-- R100 (consequences the spec lists): add and mul are commutative and associative, mul distributes over add, a
quotient is at most the dividend, adding all ones subtracts 1, nand of equal operands is NOT. -/
def Obligations.ArithmeticUnitLaws : Prop :=
  ∀ a b c : Plate,
    aluAdd a b = aluAdd b a ∧ aluAdd (aluAdd a b) c = aluAdd a (aluAdd b c) ∧
    aluMul a b = aluMul b a ∧ aluMul (aluMul a b) c = aluMul a (aluMul b c) ∧
    aluMul a (aluAdd b c) = aluAdd (aluMul a b) (aluMul a c) ∧
    (∀ q, aluDiv a b = .ok q → q.toNat ≤ a.toNat) ∧
    aluAdd a 0xFFFFFFFF = a - 1 ∧ aluNand a a = ~~~a

/-- R95. -/
def Obligations.AddWrapsModulo : Prop :=
  ∀ (a b c : RegIdx) (s : State),
    CanonicalWord (.add a b c) (3 * 268435456 + a.toNat * 64 + b.toNat * 8 + c.toNat) ∧
    (∀ w, (opcodeField w).toNat = 3 → decode w = .add (fieldA w) (fieldB w) (fieldC w)) ∧
    ∃ t, exec (.add a b c) s = .next t ∧
      (readReg t a).toNat = ((readReg s b).toNat + (readReg s c).toNat) % 2 ^ 32 ∧ OnlyReg a s t ∧
      StepAdvances (.add a b c) s t

/-- R96. -/
def Obligations.MulKeepsLowHalf : Prop :=
  ∀ (a b c : RegIdx) (s : State),
    CanonicalWord (.mul a b c) (4 * 268435456 + a.toNat * 64 + b.toNat * 8 + c.toNat) ∧
    (∀ w, (opcodeField w).toNat = 4 → decode w = .mul (fieldA w) (fieldB w) (fieldC w)) ∧
    ∃ t, exec (.mul a b c) s = .next t ∧
      (readReg t a).toNat = (readReg s b).toNat * (readReg s c).toNat % 2 ^ 32 ∧ OnlyReg a s t ∧
      StepAdvances (.mul a b c) s t

/-- R97. (Decision D6 of the spec: division by zero is a fault.) -/
def Obligations.DivFloorsOrFaultsOnZero : Prop :=
  ∀ (a b c : RegIdx) (s : State),
    CanonicalWord (.div a b c) (5 * 268435456 + a.toNat * 64 + b.toNat * 8 + c.toNat) ∧
    (∀ w, (opcodeField w).toNat = 5 → decode w = .div (fieldA w) (fieldB w) (fieldC w)) ∧
    (readReg s c ≠ 0 → ∃ t, exec (.div a b c) s = .next t ∧
      (readReg t a).toNat = (readReg s b).toNat / (readReg s c).toNat ∧ OnlyReg a s t ∧
      StepAdvances (.div a b c) s t) ∧
    (readReg s c = 0 → ∃ t, exec (.div a b c) s = .next t ∧ FaultedInExecute ⟨.divideByZero, .absent⟩ s t)

/-- R98. -/
def Obligations.NandInvertsEveryBitOfAnd : Prop :=
  ∀ (a b c : RegIdx) (s : State),
    CanonicalWord (.nand a b c) (6 * 268435456 + a.toNat * 64 + b.toNat * 8 + c.toNat) ∧
    (∀ w, (opcodeField w).toNat = 6 → decode w = .nand (fieldA w) (fieldB w) (fieldC w)) ∧
    ∃ t, exec (.nand a b c) s = .next t ∧
      (∀ k : Fin 32, (readReg t a)[k] = !((readReg s b)[k] && (readReg s c)[k])) ∧ OnlyReg a s t ∧
      StepAdvances (.nand a b c) s t

/-! ### Array access and segment management -/

/-- R105. -/
def Obligations.AidxLoadsCellOrFaults : Prop :=
  ∀ (a b c : RegIdx) (s : State),
    CanonicalWord (.aidx a b c) (268435456 + a.toNat * 64 + b.toNat * 8 + c.toNat) ∧
    (∀ w, (opcodeField w).toNat = 1 → decode w = .aidx (fieldA w) (fieldB w) (fieldC w)) ∧
    (s.mem.allocated (readReg s b) = true → (readReg s c).toNat < s.mem.len (readReg s b) →
      ∃ t, exec (.aidx a b c) s = .next t ∧ readReg t a = (s.mem.seg (readReg s b)).get (readReg s c) ∧ OnlyReg a s t ∧
        StepAdvances (.aidx a b c) s t) ∧
    (s.mem.allocated (readReg s b) = false →
      ∃ t, exec (.aidx a b c) s = .next t ∧ FaultedInExecute ⟨.oobSegment, .handle (readReg s b)⟩ s t) ∧
    (s.mem.allocated (readReg s b) = true → s.mem.len (readReg s b) ≤ (readReg s c).toNat →
      ∃ t, exec (.aidx a b c) s = .next t ∧ FaultedInExecute ⟨.oobCell, .cell (readReg s b) (readReg s c)⟩ s t)

/-- R106. The store goes to the pair `(x[A], x[B])`; every other cell reads as before. -/
def Obligations.AmendStoresOneCellOrFaults : Prop :=
  ∀ (a b c : RegIdx) (s : State), s.mem.wf = true →
    CanonicalWord (.amend a b c) (2 * 268435456 + a.toNat * 64 + b.toNat * 8 + c.toNat) ∧
    (∀ w, (opcodeField w).toNat = 2 → decode w = .amend (fieldA w) (fieldB w) (fieldC w)) ∧
    (s.mem.allocated (readReg s a) = true → (readReg s b).toNat < s.mem.len (readReg s a) →
      ∃ t, exec (.amend a b c) s = .next t ∧
        memRead t.mem (readReg s a) (readReg s b) = .ok (readReg s c) ∧
        (∀ h j, ¬(h = readReg s a ∧ j = readReg s b) → memRead t.mem h j = memRead s.mem h j) ∧
        (∀ h, t.mem.len h = s.mem.len h) ∧ t.mem.tableSize = s.mem.tableSize ∧ t.mem.pool = s.mem.pool ∧
        SameOutsideMemory s t ∧ StepAdvances (.amend a b c) s t) ∧
    (s.mem.allocated (readReg s a) = false →
      ∃ t, exec (.amend a b c) s = .next t ∧ FaultedInExecute ⟨.oobSegment, .handle (readReg s a)⟩ s t) ∧
    (s.mem.allocated (readReg s a) = true → s.mem.len (readReg s a) ≤ (readReg s b).toNat →
      ∃ t, exec (.amend a b c) s = .next t ∧ FaultedInExecute ⟨.oobCell, .cell (readReg s a) (readReg s b)⟩ s t)

/-- R107, R41. The premises are the invariant of reachable states and the two conditions of R54 under which an
allocation is not refused. (Decision D9 of the spec: a new handle is `table_size`.) -/
def Obligations.AllocCreatesZeroedSegment : Prop :=
  ∀ (b c : RegIdx) (s : State), StateInv s → s.env.allocFailures.headD false = false →
    (s.mem.pool ≠ [] ∨ s.mem.tableSize < s.env.maxTable) →
    CanonicalWord (.alloc b c) (8 * 268435456 + b.toNat * 8 + c.toNat) ∧
    (∀ w, (opcodeField w).toNat = 8 → decode w = .alloc (fieldB w) (fieldC w)) ∧
    ∃ h t, exec (.alloc b c) s = .next t ∧ readReg t b = h ∧
      h ≠ 0 ∧ s.mem.allocated h = false ∧ t.mem.allocated h = true ∧ t.mem.len h = (readReg s c).toNat ∧
      (∀ j : Plate, j.toNat < (readReg s c).toNat → memRead t.mem h j = .ok 0) ∧
      (s.mem.pool = [] → h.toNat = s.mem.tableSize ∧ t.mem.tableSize = s.mem.tableSize + 1 ∧ t.mem.pool = []) ∧
      (s.mem.pool ≠ [] → h ∈ s.mem.pool ∧ t.mem.tableSize = s.mem.tableSize ∧
        ∀ k, k ∈ t.mem.pool ↔ k ∈ s.mem.pool ∧ k ≠ h) ∧
      (∀ k j, k ≠ h → memRead t.mem k j = memRead s.mem k j) ∧ (∀ k, k ≠ h → t.mem.len k = s.mem.len k) ∧
      SameRegsBut b s t ∧ t.pc = s.pc ∧ SameControl s t ∧ t.out = s.out ∧ t.inPos = s.inPos ∧ SameArguments s t ∧
      t.env.ioErrors = s.env.ioErrors ∧ StepAdvances (.alloc b c) s t

/-- R54: an allocation that needs more than the environment has is refused: there is no successor state. (Decision D18
of the spec.) Which of the two reasons is named, and that host memory is named first, is the model's choice (log 6,
DESIGN CHOICE). -/
def Obligations.AllocRefusedOnExhaustion : Prop :=
  ∀ (b c : RegIdx) (s : State),
    (s.env.allocFailures.headD false = true → exec (.alloc b c) s = .refused .hostOutOfMemory) ∧
    (s.env.allocFailures.headD false = false → s.mem.pool = [] → s.env.maxTable ≤ s.mem.tableSize →
      exec (.alloc b c) s = .refused .segmentTableFull)

/-- R108. (Decision D8 of the spec: handle 0, a never allocated and an already abandoned handle fault.) -/
def Obligations.AbandReleasesHandleOrFaults : Prop :=
  ∀ (c : RegIdx) (s : State),
    CanonicalWord (.aband c) (9 * 268435456 + c.toNat) ∧
    (∀ w, (opcodeField w).toNat = 9 → decode w = .aband (fieldC w)) ∧
    (readReg s c ≠ 0 → (readReg s c).toNat < s.mem.tableSize → readReg s c ∉ s.mem.pool →
      ∃ t, exec (.aband c) s = .next t ∧
        (∀ k, k ∈ t.mem.pool ↔ k = readReg s c ∨ k ∈ s.mem.pool) ∧ t.mem.allocated (readReg s c) = false ∧
        t.mem.tableSize = s.mem.tableSize ∧
        (∀ k j, k ≠ readReg s c → memRead t.mem k j = memRead s.mem k j) ∧ SameOutsideMemory s t ∧
        StepAdvances (.aband c) s t) ∧
    (readReg s c = 0 ∨ s.mem.tableSize ≤ (readReg s c).toNat ∨ readReg s c ∈ s.mem.pool →
      ∃ t, exec (.aband c) s = .next t ∧ FaultedInExecute ⟨.oobSegment, .handle (readReg s c)⟩ s t)

/-- R43: SegAbandon(h) puts `h` in the pool; while it is there `h` is not allocated and every transaction on it faults;
it leaves the pool only when ALLOC returns it, and its cells are zero then. -/
def Obligations.AbandonedHandleFaultsUntilReused : Prop :=
  ∀ h : Plate,
    (∀ m m', segAbandon m h = .ok m' → h ∈ m'.pool) ∧
    (∀ m : Memory, h ∈ m.pool → m.allocated h = false ∧
      (∀ j, memRead m h j = .error ⟨.oobSegment, .handle h⟩) ∧
      (∀ j v, memWrite m h j v = .error ⟨.oobSegment, .handle h⟩) ∧
      segAbandon m h = .error ⟨.oobSegment, .handle h⟩ ∧ segLoadProgram m h = .error ⟨.oobSegment, .handle h⟩) ∧
    (∀ (i : Instr) (s t : State), h ∈ s.mem.pool → exec i s = .next t →
      h ∈ t.mem.pool ∨ ∃ b c, i = .alloc b c ∧ readReg t b = h) ∧
    (∀ (b c : RegIdx) (s t : State), s.mem.wf = true → h ∈ s.mem.pool → exec (.alloc b c) s = .next t →
      readReg t b = h → t.mem.allocated h = true ∧ t.mem.len h = (readReg s c).toNat ∧
        ∀ j : Plate, j.toNat < (readReg s c).toNat → memRead t.mem h j = .ok 0)

/-- D10, U7 (the executable default of POOL_PICK, log 4): with `lifo` the handle abandoned last is reused first, with
the new length and zeros. -/
def Obligations.LifoReusesHandleAbandonedLast : Prop :=
  ∀ (a b c : RegIdx) (s t : State), s.mem.wf = true → exec (.aband a) s = .next t → t.mem ≠ s.mem →
    s.env.poolPick = .lifo → s.env.allocFailures.headD false = false →
    ∃ u, exec (.alloc b c) t = .next u ∧ readReg u b = readReg s a ∧
      u.mem.len (readReg s a) = (readReg s c).toNat ∧
      ∀ j : Plate, j.toNat < (readReg s c).toNat → memRead u.mem (readReg s a) j = .ok 0

/-! ### The segment store -/

/-- R35: the handle check comes before the offset check, for a read and for a write. (Decision D21 of the spec.) -/
def Obligations.HandleCheckBeforeOffsetCheck : Prop :=
  ∀ (m : Memory) (h j v : Plate),
    (¬(h.toNat < m.tableSize ∧ h ∉ m.pool) →
      memRead m h j = .error ⟨.oobSegment, .handle h⟩ ∧ memWrite m h j v = .error ⟨.oobSegment, .handle h⟩) ∧
    (h.toNat < m.tableSize → h ∉ m.pool → m.len h ≤ j.toNat →
      memRead m h j = .error ⟨.oobCell, .cell h j⟩ ∧ memWrite m h j v = .error ⟨.oobCell, .cell h j⟩) ∧
    (h.toNat < m.tableSize → h ∉ m.pool → j.toNat < m.len h →
      memRead m h j = .ok ((m.seg h).get j) ∧ ∃ m', memWrite m h j v = .ok m')

/-- R38: a write to a cell that exists changes exactly that cell, never extends a segment, and keeps the canonical form;
any other write faults. Segment 0 is written like any other. -/
def Obligations.MemWriteChangesExactlyOneCell : Prop :=
  ∀ (m : Memory) (h j v : Plate), m.wf = true →
    (m.allocated h = false → memWrite m h j v = .error ⟨.oobSegment, .handle h⟩) ∧
    (m.allocated h = true → m.len h ≤ j.toNat → memWrite m h j v = .error ⟨.oobCell, .cell h j⟩) ∧
    (m.allocated h = true → j.toNat < m.len h → ∃ m', memWrite m h j v = .ok m' ∧
      memRead m' h j = .ok v ∧ (∀ k i, ¬(k = h ∧ i = j) → memRead m' k i = memRead m k i) ∧
      (∀ k, m'.len k = m.len k) ∧ m'.tableSize = m.tableSize ∧ m'.pool = m.pool ∧ m'.wf = true)

/-- R44: the load copies the source segment, leaves it as it is, and the two do not alias. -/
def Obligations.LoadProgramCopiesWithoutAliasing : Prop :=
  ∀ (m : Memory) (h : Plate), m.wf = true → h ≠ 0 →
    (m.allocated h = false → segLoadProgram m h = .error ⟨.oobSegment, .handle h⟩) ∧
    (m.allocated h = true → ∃ m1, segLoadProgram m h = .ok m1 ∧ m1.len 0 = m.len h ∧
      (∀ j : Plate, j.toNat < m.len h → memRead m1 0 j = memRead m h j) ∧
      (∀ k j, k ≠ 0 → memRead m1 k j = memRead m k j) ∧ m1.allocated h = true ∧
      (∀ i v m2, memWrite m1 h i v = .ok m2 → ∀ j, memRead m2 0 j = memRead m1 0 j) ∧
      (∀ i v m2, memWrite m1 0 i v = .ok m2 → ∀ j, memRead m2 h j = memRead m1 h j))

/-- R172: a word stored into segment 0, even at `pc + 1`, is what the next fetch returns; LOADPROG's replacement is
complete before the fetch at the new `pc`. -/
def Obligations.NextFetchSeesStoresToProgram : Prop :=
  ∀ (s : State) (w : Plate), s.mem.wf = true → s.run = .running → fetch s = .ok w →
    (∀ a b c, decode w = .amend a b c → readReg s a = 0 → readReg s b = s.pc + 1 →
      (readReg s b).toNat < s.mem.len 0 → ∃ t, step s = .next t ∧ fetch t = .ok (readReg s c)) ∧
    (∀ b c, decode w = .loadprog b c → readReg s b ≠ 0 → s.mem.allocated (readReg s b) = true →
      (readReg s c).toNat < s.mem.len (readReg s b) →
      ∃ t, step s = .next t ∧ fetch t = .ok ((s.mem.seg (readReg s b)).get (readReg s c)))

/-! ### Byte output and input -/

/-- R115. -/
def Obligations.OutAppendsLowByteOrFaults : Prop :=
  ∀ (c : RegIdx) (s : State),
    CanonicalWord (.out c) (10 * 268435456 + c.toNat) ∧
    (∀ w, (opcodeField w).toNat = 10 → decode w = .out (fieldC w)) ∧
    (s.env.ioMayFail = false → ioFails s = false) ∧
    (ioFails s = false → ∃ (b : Byte) (t : State), exec (.out c) s = .next t ∧ b.toNat = (readReg s c).toNat % 256 ∧
      t.out = s.out ++ [b] ∧ SameRegs s t ∧ t.pc = s.pc ∧ SameControl s t ∧ t.mem = s.mem ∧ SameCells s t ∧
      t.inPos = s.inPos ∧ SameArguments s t ∧ t.env.allocFailures = s.env.allocFailures ∧
      t.env.poolDraws = s.env.poolDraws ∧ StepAdvances (.out c) s t) ∧
    (ioFails s = true → ∃ t, exec (.out c) s = .next t ∧ FaultedInExecute ⟨.ioError, .absent⟩ s t)

/-- R116. (Decision D7 of the spec: the end-of-input value.) -/
def Obligations.InReadsByteOrEndOfInputOrFaults : Prop :=
  ∀ (c : RegIdx) (s : State),
    CanonicalWord (.inp c) (11 * 268435456 + c.toNat) ∧
    (∀ w, (opcodeField w).toNat = 11 → decode w = .inp (fieldC w)) ∧
    (s.env.ioMayFail = false → ioFails s = false) ∧
    (ioFails s = false → ∃ t, exec (.inp c) s = .next t ∧
      (∀ b, s.env.input[s.inPos]? = some b → (readReg t c).toNat = b.toNat ∧ t.inPos = s.inPos + 1) ∧
      (s.env.input.length ≤ s.inPos → readReg t c = 0xFFFFFFFF ∧ t.inPos = s.inPos) ∧
      SameRegsBut c s t ∧ t.pc = s.pc ∧ SameControl s t ∧ t.mem = s.mem ∧ SameCells s t ∧ t.out = s.out ∧
      SameArguments s t ∧ t.env.allocFailures = s.env.allocFailures ∧ t.env.poolDraws = s.env.poolDraws ∧
      StepAdvances (.inp c) s t) ∧
    (ioFails s = true → ∃ t, exec (.inp c) s = .next t ∧ FaultedInExecute ⟨.ioError, .absent⟩ s t)

/-- R49, R116 (end of input is sticky): from a state at the end of INPUT, every IN that a run reaches gives the
end-of-input value and consumes nothing. -/
def Obligations.EndOfInputIsSticky : Prop :=
  ∀ (k : Nat) (s u : State) (c : RegIdx), s.env.input.length ≤ s.inPos → Reaches k s u → ioFails u = false →
    ∃ v, exec (.inp c) u = .next v ∧ readReg v c = 0xFFFFFFFF ∧ v.inPos = s.inPos

/-- R30, R48, R50, R24: along a run bytes are only added to the output, the input position and the segment table only
grow, and the arguments do not change. -/
def Obligations.RunsOnlyExtendStreamsAndTable : Prop :=
  ∀ (k : Nat) (s t : State), Reaches k s t →
    s.out <+: t.out ∧ s.inPos ≤ t.inPos ∧ s.mem.tableSize ≤ t.mem.tableSize ∧ SameArguments s t

/-! ### Control -/

/-- R120. (Decision D5 of the spec: `pc` is held.) -/
def Obligations.HaltStopsAndHoldsPc : Prop :=
  CanonicalWord .halt (7 * 268435456) ∧ (∀ w, (opcodeField w).toNat = 7 → decode w = .halt) ∧
  (∀ s : State, ∃ t, exec .halt s = .next t ∧ t.run = .halted ∧ t.fault = s.fault ∧ SameRegs s t ∧ t.pc = s.pc ∧
    t.mem = s.mem ∧ SameCells s t ∧ SameStreams s t) ∧
  (∀ (s : State) (w : Plate), s.run = .running → fetch s = .ok w → (opcodeField w).toNat = 7 →
    ∃ t, step s = .next t ∧ t.run = .halted ∧ t.pc = s.pc ∧ t.fault = s.fault ∧ SameRegs s t ∧ t.mem = s.mem ∧
      SameStreams s t ∧ ∀ u, step t ≠ .next u)

/-- R122. (Decision D28 of the spec: the target is not checked.) -/
def Obligations.LoadprogJumpsAndReplacesProgram : Prop :=
  ∀ (b c : RegIdx) (s : State), s.mem.wf = true →
    CanonicalWord (.loadprog b c) (12 * 268435456 + b.toNat * 8 + c.toNat) ∧
    (∀ w, (opcodeField w).toNat = 12 → decode w = .loadprog (fieldB w) (fieldC w)) ∧
    (readReg s b = 0 → ∃ t, exec (.loadprog b c) s = .next t ∧ t.pc = readReg s c ∧ t.mem = s.mem ∧ SameCells s t ∧
      SameRegs s t ∧ SameControl s t ∧ SameStreams s t) ∧
    (readReg s b ≠ 0 → s.mem.allocated (readReg s b) = true → ∃ t, exec (.loadprog b c) s = .next t ∧
      t.pc = readReg s c ∧ t.mem.len 0 = s.mem.len (readReg s b) ∧
      (∀ j : Plate, j.toNat < s.mem.len (readReg s b) → memRead t.mem 0 j = memRead s.mem (readReg s b) j) ∧
      (∀ h j, h ≠ 0 → memRead t.mem h j = memRead s.mem h j) ∧ t.mem.pool = s.mem.pool ∧
      t.mem.tableSize = s.mem.tableSize ∧ SameRegs s t ∧ SameControl s t ∧ SameStreams s t ∧
      (∀ i v m2, memWrite t.mem (readReg s b) i v = .ok m2 → ∀ j, memRead m2 0 j = memRead t.mem 0 j) ∧
      (∀ i v m2, memWrite t.mem 0 i v = .ok m2 → ∀ j, memRead m2 (readReg s b) j = memRead t.mem (readReg s b) j)) ∧
    (readReg s b ≠ 0 → s.mem.allocated (readReg s b) = false →
      ∃ t, exec (.loadprog b c) s = .next t ∧ FaultedInExecute ⟨.oobSegment, .handle (readReg s b)⟩ s t) ∧
    (∀ (w : Plate) (u : State), s.run = .running → fetch s = .ok w → decode w = .loadprog b c → step s = .next u →
      u.run = .running → u.pc = readReg s c ∧ (u.mem.len 0 ≤ (readReg s c).toNat →
        ∃ v, step u = .next v ∧ OnlyFaulted ⟨.oobPc, .pc (readReg s c)⟩ none u v))

/-! ### The cycle -/

/-- R80, R83, R84: the step of a running machine whose word is fetched is the execution of the decoded instruction
followed by the sequencer's advance. That exec never answers the interface's fault outcome is the model's choice, by which
the spec's faults are next states (log 2, DESIGN CHOICE); that a refusal of exec is the step's is R54's refusal as the
model writes it (log 6). -/
def Obligations.StepRunsDecodedInstruction : Prop :=
  ∀ (s : State) (w : Plate) (i : Instr), s.run = .running → fetch s = .ok w → decode w = i →
    (∀ u, exec i s = .next u → ∃ t, step s = .next t ∧ t = advance i u ∧
      t.pc = (if u.run = .running ∧ i.isLoadprog = false then u.pc + 1 else u.pc)) ∧
    (∀ r, exec i s = .refused r → step s = .refused r) ∧ (∀ f, exec i s ≠ .fault f)

/-- R81. -/
def Obligations.FetchBeyondProgramFaults : Prop :=
  ∀ s : State, s.run = .running →
    (s.pc.toNat < s.mem.len 0 → fetch s = .ok ((s.mem.seg 0).get s.pc)) ∧
    (s.mem.len 0 ≤ s.pc.toNat → ∃ t, step s = .next t ∧ OnlyFaulted ⟨.oobPc, .pc s.pc⟩ none s t)

/-- R70, R82, R136, for the step: the cycle of a running machine that fetched a word with opcode 14 or 15 ends with the
DecodeError fault, the whole word recorded, nothing else changed. That decode answers such a word with a constructor that
is not well-formed, and that exec of that constructor makes the fault entry, is the model's choice of how R70's signal is
written (log 11, DESIGN CHOICE): the spec's decode returns no value there and executes nothing. -/
def Obligations.IllegalOpcodeTakesDecodeError : Prop :=
  (∀ w : Plate, (decode w).wellFormed = false ↔ 14 ≤ (opcodeField w).toNat) ∧
  (∀ (rest : BitVec 28) (s : State),
    (∃ t, exec (.illegal14 rest) s = .next t ∧
      OnlyFaulted ⟨.decodeError, .absent⟩ (some (BitVec.ofNat 32 (14 * 268435456 + rest.toNat))) s t) ∧
    (∃ t, exec (.illegal15 rest) s = .next t ∧
      OnlyFaulted ⟨.decodeError, .absent⟩ (some (BitVec.ofNat 32 (15 * 268435456 + rest.toNat))) s t)) ∧
  (∀ (s : State) (w : Plate), s.run = .running → fetch s = .ok w → 14 ≤ (opcodeField w).toNat →
    ∃ t, step s = .next t ∧ OnlyFaulted ⟨.decodeError, .absent⟩ (some w) s t)

/-- R84, R15: after a step that leaves the machine running `pc` is LOADPROG's target, or one more than before without
wrapping; a HALT and every fault hold it. -/
def Obligations.NextProgramCounter : Prop :=
  ∀ s t : State, StateInv s → step s = .next t →
    (t.run ≠ .running → t.pc = s.pc) ∧
    (t.run = .running → ∃ w, fetch s = .ok w ∧
      ((∃ b c, decode w = .loadprog b c ∧ t.pc = readReg s c) ∨
       ((decode w).isLoadprog = false ∧ t.pc = s.pc + 1 ∧ t.pc.toNat = s.pc.toNat + 1)))

/-- R14: `pc` is written by reset, by the increment and by LOADPROG only, and no instruction reads it: with another `pc`
an instruction does the same to everything but `pc` and the fault record. -/
def Obligations.PcWrittenThreeWaysAndNeverRead : Prop :=
  (∀ image env, (State.resetWith image env).pc = 0) ∧
  (∀ (i : Instr) (s t : State), exec i s = .next t →
    t.pc = s.pc ∨ ∃ b c, i = .loadprog b c ∧ t.run = s.run ∧ t.pc = readReg s c) ∧
  (∀ s t : State, step s = .next t →
    t.pc = s.pc ∨ t.pc = s.pc + 1 ∨ ∃ w b c, fetch s = .ok w ∧ decode w = .loadprog b c ∧ t.pc = readReg s c) ∧
  (∀ (i : Instr) (s t : State) (p : Plate), exec i s = .next t →
    ∃ t', exec i { s with pc := p } = .next t' ∧ t'.x = t.x ∧ t'.run = t.run ∧ t'.mem = t.mem ∧ t'.out = t.out ∧
      t'.inPos = t.inPos ∧ t'.env = t.env)

/-- R16, R86: only a running machine steps, only HALT leads to HALTED, only a fault to FAULTED, and both are terminal.
(Decision D13 of the spec; that a stopped machine's step is the model's fault outcome is log 13.) -/
def Obligations.RunStateTransitions : Prop :=
  (∀ s : State, s.run ≠ .running → ∀ t, step s ≠ .next t) ∧
  (∀ s t : State, StateInv s → step s = .next t →
    (t.run = .halted ↔ ∃ w, fetch s = .ok w ∧ decode w = .halt) ∧
    (t.run = .faulted ↔ t.fault ≠ none) ∧ (t.run = .halted → SuccessfulEnd t))

/-- R12 (writes): an instruction changes no register but the one the table names. -/
def Obligations.OnlyDestinationRegisterWritten : Prop :=
  ∀ (i : Instr) (s t : State), exec i s = .next t → ∀ r, destination i ≠ some r → readReg t r = readReg s r

/-- R12 (reads): an instruction depends on no register but those the table names: two machines that differ only in the
other registers do the same, register by register or by leaving both alone. -/
def Obligations.OnlySourceRegistersRead : Prop :=
  ∀ (i : Instr) (s t : State) (y : Vector Plate 8), (∀ r ∈ sources i, readReg { s with x := y } r = readReg s r) →
    exec i s = .next t →
    ∃ t', exec i { s with x := y } = .next t' ∧ t'.pc = t.pc ∧ t'.run = t.run ∧ t'.fault = t.fault ∧ t'.mem = t.mem ∧
      t'.out = t.out ∧ t'.inPos = t.inPos ∧ t'.env = t.env ∧
      ∀ r, readReg t' r = readReg t r ∨ (readReg t' r = readReg { s with x := y } r ∧ readReg t r = readReg s r)

/-- R18 (an inference of the spec): no instruction reads `run` or `fault`. -/
def Obligations.NoInstructionReadsRunOrFault : Prop :=
  ∀ (i : Instr) (s t : State) (r : RunState) (f : Option FaultRecord), exec i s = .next t →
    ∃ t', exec i { s with run := r, fault := f } = .next t' ∧ t'.x = t.x ∧ t'.pc = t.pc ∧ t'.mem = t.mem ∧
      t'.out = t.out ∧ t'.inPos = t.inPos ∧ t'.env = t.env

/-! ### Faults -/

/-- R134: every fault is precise: the step changes `run` and `fault` and nothing else. (Decision D11 of the spec.) -/
def Obligations.FaultsArePrecise : Prop :=
  ∀ s t : State, step s = .next t → t.run = .faulted →
    ∃ (cause : FaultCause) (word : Option Plate), OnlyFaulted cause word s t ∧
      (∀ w, fetch s = .ok w → word = some w) ∧ (s.mem.len 0 ≤ s.pc.toNat → word = none)

/-- R131, R132, R133: a cycle faults exactly when the table of causes says so, with the first cause in the order of
R133, and the record is the table's. -/
def Obligations.CycleFaultsExactlyAsTabled : Prop :=
  ∀ s t : State, s.run = .running → step s = .next t →
    (t.run = .faulted ↔ (cycleFault s).isSome = true) ∧
    (∀ cause word, cycleFault s = some (cause, word) → t.fault = some ⟨cause.kind, s.pc, word, cause.info⟩) ∧
    (cycleFault s = none → t.fault = s.fault) ∧
    (∀ r, t.fault = some r → t.run = .faulted → r.kind ≠ .oobRegister)

/-- R54, R132: a step of a running machine is never without an answer: it has a successor unless an ALLOC is refused. -/
def Obligations.RunningMachineStepsUnlessAllocRefused : Prop :=
  ∀ s : State, s.run = .running →
    (∃ t, step s = .next t) ∨
    (∃ w b c r, fetch s = .ok w ∧ decode w = .alloc b c ∧ step s = .refused r ∧
      (s.env.allocFailures.headD false = true ∨ (s.mem.pool = [] ∧ s.env.maxTable ≤ s.mem.tableSize)))

/-! ### Reset, loader, invariant -/

/-- R161 to R165: after reset, whatever the state was before. (Decisions D3 and D20 of the spec.) -/
def Obligations.ResetPutsEveryPieceOfState : Prop :=
  ∀ (image : List Plate) (env : Env) (before : State),
    (∀ r, readReg (ctlReset image env before) r = 0) ∧ (ctlReset image env before).pc = 0 ∧
    ctlRead (ctlReset image env before) = (.running, none) ∧
    (ctlReset image env before).mem.tableSize = 1 ∧ (ctlReset image env before).mem.pool = [] ∧
    ((ctlReset image env before).mem.seg 0).toPlates = image ∧
    (∀ h, (ctlReset image env before).mem.allocated h = true ↔ h = 0) ∧
    (ctlReset image env before).out = [] ∧ (ctlReset image env before).inPos = 0

/-- R52: the loader assembles big-endian words and refuses a trailing partial word; R32 bounds the length. -/
def Obligations.LoaderAssemblesBigEndianWords : Prop :=
  ∀ bytes : List Byte,
    (bytes.length % 4 ≠ 0 → loadImage bytes = .error .trailingPartialWord ∧
      ∀ env, bootFromBytes bytes env = .error .trailingPartialWord) ∧
    (bytes.length % 4 = 0 → bytes.length / 4 ≤ maxSegmentLength →
      ∃ image, loadImage bytes = .ok image ∧ 4 * image.length = bytes.length ∧
        (∀ env, bootFromBytes bytes env = .ok (State.resetWith image env)) ∧
        ∀ (k : Nat) (w : Plate) (b0 b1 b2 b3 : Byte), image[k]? = some w → bytes[4 * k]? = some b0 →
          bytes[4 * k + 1]? = some b1 → bytes[4 * k + 2]? = some b2 → bytes[4 * k + 3]? = some b3 →
          w.toNat = b0.toNat * 2 ^ 24 + b1.toNat * 2 ^ 16 + b2.toNat * 2 ^ 8 + b3.toNat)

/-- The invariant of Safety.lean (R30 to R32, R16, R17, R49, R131) holds at the fixed reset state. -/
def Obligations.InvariantHoldsAtReset : Prop := StateInv State.reset

/-- The invariant holds after reset with every image within the bound of R32 and every argument within R3. -/
def Obligations.InvariantHoldsAfterResetWithImage : Prop :=
  ∀ (image : List Plate) (env : Env), image.length ≤ maxSegmentLength → 1 ≤ env.maxTable → env.maxTable ≤ plateCount →
    StateInv (State.resetWith image env)

/-- R31, R30, R32, R16, R17: every step keeps the invariant. -/
def Obligations.EveryStepKeepsInvariant : Prop :=
  ∀ s t : State, StateInv s → step s = .next t → StateInv t
end

