-- ==== Sys2Proof/Laws/Decode.lean ====
section
/-! SUPPORT. The numbers behind the decoder's fields and the encoder's words (spec/30_encoding.md R62 to R64, R75): the
lemmas a proof about an encoding cites instead of unfolding slices. -/

namespace Sys2Proof.Laws

/-! ### Fields as numbers -/

theorem opcodeField_toNat (w : Plate) : (opcodeField w).toNat = w.toNat / 268435456 := by
  have := w.isLt
  rw [opcodeField, BitVec.extractLsb'_toNat, Nat.shiftRight_eq_div_pow, Nat.mod_eq_of_lt]
  omega

theorem fieldA_toNat (w : Plate) : (fieldA w).toNat = w.toNat / 64 % 8 := by
  rw [fieldA, BitVec.extractLsb'_toNat, Nat.shiftRight_eq_div_pow]

theorem fieldB_toNat (w : Plate) : (fieldB w).toNat = w.toNat / 8 % 8 := by
  rw [fieldB, BitVec.extractLsb'_toNat, Nat.shiftRight_eq_div_pow]

theorem fieldC_toNat (w : Plate) : (fieldC w).toNat = w.toNat % 8 := by
  rw [fieldC, BitVec.extractLsb'_toNat, Nat.shiftRight_eq_div_pow, Nat.pow_zero, Nat.div_one]

theorem fieldT_toNat (w : Plate) : (fieldT w).toNat = w.toNat / 33554432 % 8 := by
  rw [fieldT, BitVec.extractLsb'_toNat, Nat.shiftRight_eq_div_pow]

theorem fieldImm_toNat (w : Plate) : (fieldImm w).toNat = w.toNat % 33554432 := by
  rw [fieldImm, BitVec.extractLsb'_toNat, Nat.shiftRight_eq_div_pow, Nat.pow_zero, Nat.div_one]

theorem fieldRest_toNat (w : Plate) : (fieldRest w).toNat = w.toNat % 268435456 := by
  rw [fieldRest, BitVec.extractLsb'_toNat, Nat.shiftRight_eq_div_pow, Nat.pow_zero, Nat.div_one]

/-! ### Words as numbers -/

theorem encodeS_toNat (op : BitVec 4) (a b c : RegIdx) :
    (encodeS op a b c).toNat = op.toNat * 268435456 + a.toNat * 64 + b.toNat * 8 + c.toNat := by
  have := a.isLt; have := b.isLt; have := c.isLt; have := op.isLt
  rw [encodeS, BitVec.toNat_ofNat, Nat.mod_eq_of_lt]
  omega

theorem encodeL_toNat (t : RegIdx) (imm : Imm) :
    (encodeL t imm).toNat = 3489660928 + t.toNat * 33554432 + imm.toNat := by
  have := t.isLt; have := imm.isLt
  rw [encodeL, BitVec.toNat_ofNat, Nat.mod_eq_of_lt]
  omega

theorem encodeIllegal_toNat (op : BitVec 4) (rest : BitVec 28) :
    (encodeIllegal op rest).toNat = op.toNat * 268435456 + rest.toNat := by
  have := op.isLt; have := rest.isLt
  rw [encodeIllegal, BitVec.toNat_ofNat, Nat.mod_eq_of_lt]
  omega

/-! ### The opcode of a built word -/

theorem opcodeField_encodeS (op : BitVec 4) (a b c : RegIdx) : opcodeField (encodeS op a b c) = op := by
  apply BitVec.eq_of_toNat_eq
  have := a.isLt; have := b.isLt; have := c.isLt
  rw [opcodeField_toNat, encodeS_toNat]
  omega

theorem opcodeField_encodeL (t : RegIdx) (imm : Imm) : opcodeField (encodeL t imm) = 13 := by
  apply BitVec.eq_of_toNat_eq
  have := t.isLt; have := imm.isLt
  rw [opcodeField_toNat, encodeL_toNat, show (13 : BitVec 4).toNat = 13 from rfl]
  omega

theorem opcodeField_encodeIllegal (op : BitVec 4) (rest : BitVec 28) : opcodeField (encodeIllegal op rest) = op := by
  apply BitVec.eq_of_toNat_eq
  have := rest.isLt
  rw [opcodeField_toNat, encodeIllegal_toNat]
  omega

/-! ### The operand fields of a built word -/

theorem fieldA_encodeS (op : BitVec 4) (a b c : RegIdx) : fieldA (encodeS op a b c) = a := by
  apply BitVec.eq_of_toNat_eq
  have := a.isLt; have := b.isLt; have := c.isLt
  rw [fieldA_toNat, encodeS_toNat]; omega

theorem fieldB_encodeS (op : BitVec 4) (a b c : RegIdx) : fieldB (encodeS op a b c) = b := by
  apply BitVec.eq_of_toNat_eq
  have := a.isLt; have := b.isLt; have := c.isLt
  rw [fieldB_toNat, encodeS_toNat]; omega

theorem fieldC_encodeS (op : BitVec 4) (a b c : RegIdx) : fieldC (encodeS op a b c) = c := by
  apply BitVec.eq_of_toNat_eq
  have := a.isLt; have := b.isLt; have := c.isLt
  rw [fieldC_toNat, encodeS_toNat]; omega

theorem fieldT_encodeL (t : RegIdx) (imm : Imm) : fieldT (encodeL t imm) = t := by
  apply BitVec.eq_of_toNat_eq
  have := t.isLt; have := imm.isLt
  rw [fieldT_toNat, encodeL_toNat]; omega

theorem fieldImm_encodeL (t : RegIdx) (imm : Imm) : fieldImm (encodeL t imm) = imm := by
  apply BitVec.eq_of_toNat_eq
  have := t.isLt; have := imm.isLt
  rw [fieldImm_toNat, encodeL_toNat]; omega

theorem fieldRest_encodeIllegal (op : BitVec 4) (r : BitVec 28) : fieldRest (encodeIllegal op r) = r := by
  apply BitVec.eq_of_toNat_eq
  have := r.isLt
  rw [fieldRest_toNat, encodeIllegal_toNat]; omega

/-! ### The decoder by opcode -/

/-- R65: what a word decodes to once its opcode is known. -/
theorem decode_of_opcode (w : Plate) (n : Nat) (h : (opcodeField w).toNat = n) : decode w = decodeAs n w := by
  subst h; rfl

/-- R64: the opcode of a word is one of sixteen values. -/
theorem opcode_cases (w : Plate) :
    (opcodeField w).toNat = 0 ∨ (opcodeField w).toNat = 1 ∨ (opcodeField w).toNat = 2 ∨ (opcodeField w).toNat = 3 ∨
    (opcodeField w).toNat = 4 ∨ (opcodeField w).toNat = 5 ∨ (opcodeField w).toNat = 6 ∨ (opcodeField w).toNat = 7 ∨
    (opcodeField w).toNat = 8 ∨ (opcodeField w).toNat = 9 ∨ (opcodeField w).toNat = 10 ∨ (opcodeField w).toNat = 11 ∨
    (opcodeField w).toNat = 12 ∨ (opcodeField w).toNat = 13 ∨ (opcodeField w).toNat = 14 ∨
    (opcodeField w).toNat = 15 := by
  have := (opcodeField w).isLt
  omega

end Sys2Proof.Laws
end

