-- ==== Sys2Proof/Laws/Memory.lean ====
section
/-! SUPPORT. The laws of the segment store (spec/20_memory.md): reading after writing, and that every memory operation
keeps the canonical form. -/

namespace Sys2Proof.Machine

/-! ### Cells -/

theorem cellsWf_weaken (lo lo' len : Nat) (cs : List (Nat × Plate)) (hlo : lo' ≤ lo) (h : cellsWf lo len cs = true) :
    cellsWf lo' len cs = true := by
  cases cs with
  | nil => rfl
  | cons kv rest =>
    obtain ⟨k, v⟩ := kv
    simp only [cellsWf, Bool.and_eq_true, decide_eq_true_eq] at h ⊢
    exact ⟨⟨⟨by omega, h.1.1.2⟩, h.1.2⟩, h.2⟩

/-- An offset below all listed ones reads as unlisted. -/
theorem cellsGet_below (lo len j : Nat) (cs : List (Nat × Plate)) (h : cellsWf lo len cs = true) (hj : j < lo) :
    cellsGet cs j = unlistedCell := by
  induction cs generalizing lo with
  | nil => rfl
  | cons kv rest ih =>
    obtain ⟨k, v⟩ := kv
    simp only [cellsWf, Bool.and_eq_true, decide_eq_true_eq] at h
    rw [cellsGet, if_neg (by omega)]
    exact ih (k + 1) h.2 (by omega)

/-- R37, R38: what is read after a write. -/
theorem cellsGet_cellsPut (lo len j i : Nat) (v : Plate) (cs : List (Nat × Plate)) (h : cellsWf lo len cs = true) :
    cellsGet (cellsPut j v cs) i = if i = j then v else cellsGet cs i := by
  induction cs generalizing lo with
  | nil =>
    by_cases hv : v = unlistedCell
    · rw [cellsPut, if_pos hv]; by_cases hi : i = j <;> simp [cellsGet, hi, hv]
    · rw [cellsPut, if_neg hv]
      by_cases hi : i = j
      · rw [if_pos hi, cellsGet, if_pos hi.symm]
      · rw [if_neg hi]; exact if_neg (Ne.symm hi)
  | cons kv rest ih =>
    obtain ⟨k, u⟩ := kv
    simp only [cellsWf, Bool.and_eq_true, decide_eq_true_eq] at h
    have hrest := ih (k + 1) h.2
    by_cases hlt : j < k
    · have hbelow : cellsGet ((k, u) :: rest) j = unlistedCell := by
        rw [cellsGet, if_neg (by omega)]
        exact cellsGet_below (k + 1) len j rest h.2 (by omega)
      by_cases hv : v = unlistedCell
      · rw [cellsPut, if_pos hlt, if_pos hv]
        by_cases hi : i = j
        · rw [if_pos hi, hi, hbelow, hv]
        · rw [if_neg hi]
      · rw [cellsPut, if_pos hlt, if_neg hv]
        by_cases hi : i = j
        · rw [if_pos hi, cellsGet, if_pos hi.symm]
        · rw [if_neg hi, cellsGet, if_neg (Ne.symm hi)]
    · by_cases heq : j = k
      · subst heq
        by_cases hv : v = unlistedCell
        · rw [cellsPut, if_neg hlt, if_pos rfl, if_pos hv]
          by_cases hi : i = j
          · rw [if_pos hi, hi, hv]
            exact cellsGet_below (j + 1) len j rest h.2 (by omega)
          · rw [if_neg hi, cellsGet, if_neg (Ne.symm hi)]
        · rw [cellsPut, if_neg hlt, if_pos rfl, if_neg hv]
          by_cases hi : i = j
          · rw [if_pos hi, cellsGet, if_pos hi.symm]
          · rw [if_neg hi, cellsGet, cellsGet, if_neg (Ne.symm hi), if_neg (Ne.symm hi)]
      · rw [cellsPut, if_neg hlt, if_neg heq]
        by_cases hk : k = i
        · subst hk
          rw [cellsGet, if_pos rfl, if_neg (Ne.symm heq), cellsGet, if_pos rfl]
        · rw [cellsGet, if_neg hk, hrest, cellsGet, if_neg hk]

theorem cellsWf_cellsPut (lo len j : Nat) (v : Plate) (cs : List (Nat × Plate)) (h : cellsWf lo len cs = true)
    (hlo : lo ≤ j) (hj : j < len) : cellsWf lo len (cellsPut j v cs) = true := by
  induction cs generalizing lo with
  | nil =>
    by_cases hv : v = unlistedCell
    · rw [cellsPut, if_pos hv]; rfl
    · rw [cellsPut, if_neg hv]; simp [cellsWf, hlo, hj, hv]
  | cons kv rest ih =>
    obtain ⟨k, u⟩ := kv
    have hwf := h
    simp only [cellsWf, Bool.and_eq_true, decide_eq_true_eq] at h
    by_cases hlt : j < k
    · by_cases hv : v = unlistedCell
      · rw [cellsPut, if_pos hlt, if_pos hv]; exact hwf
      · rw [cellsPut, if_pos hlt, if_neg hv]
        simp only [cellsWf, Bool.and_eq_true, decide_eq_true_eq]
        exact ⟨⟨⟨hlo, hj⟩, hv⟩, ⟨⟨by omega, h.1.1.2⟩, h.1.2⟩, h.2⟩
    · by_cases heq : j = k
      · subst heq
        by_cases hv : v = unlistedCell
        · rw [cellsPut, if_neg hlt, if_pos rfl, if_pos hv]
          exact cellsWf_weaken (j + 1) lo len rest (by omega) h.2
        · rw [cellsPut, if_neg hlt, if_pos rfl, if_neg hv]
          simp only [cellsWf, Bool.and_eq_true, decide_eq_true_eq]
          exact ⟨⟨⟨hlo, hj⟩, hv⟩, h.2⟩
      · rw [cellsPut, if_neg hlt, if_neg heq]
        simp only [cellsWf, Bool.and_eq_true, decide_eq_true_eq]
        exact ⟨h.1, ih (k + 1) h.2 (by omega)⟩

theorem cellsWf_cellsFrom (j len : Nat) (ps : List Plate) (h : j + ps.length ≤ len) :
    cellsWf j len (cellsFrom j ps) = true := by
  induction ps generalizing j with
  | nil => rfl
  | cons v rest ih =>
    simp only [List.length_cons] at h
    have hrest := ih (j + 1) (by omega)
    by_cases hv : v = unlistedCell
    · rw [cellsFrom, if_pos hv]; exact cellsWf_weaken (j + 1) j len _ (by omega) hrest
    · rw [cellsFrom, if_neg hv]
      simp only [cellsWf, Bool.and_eq_true, decide_eq_true_eq]
      exact ⟨⟨⟨Nat.le_refl j, by omega⟩, hv⟩, hrest⟩

/-! ### Segments -/

theorem segment_wf_iff (sg : Segment) :
    sg.wf = true ↔ sg.len ≤ maxSegmentLength ∧ cellsWf 0 sg.len sg.cells = true := by
  rw [Segment.wf, Bool.and_eq_true, decide_eq_true_eq]

theorem segment_put_wf (sg : Segment) (j v : Plate) (h : sg.wf = true) (hj : j.toNat < sg.len) :
    (sg.put j v).wf = true := by
  rw [segment_wf_iff] at h ⊢
  exact ⟨h.1, cellsWf_cellsPut 0 sg.len j.toNat v sg.cells h.2 (Nat.zero_le _) hj⟩

theorem segment_zeros_wf (len : Plate) : (Segment.zeros len).wf = true := by
  rw [segment_wf_iff]
  have := len.isLt
  exact ⟨by simp only [Segment.zeros, maxSegmentLength]; omega, rfl⟩

theorem segment_discarded_wf : Segment.discarded.wf = true := by decide

theorem segment_ofPlates_wf (ps : List Plate) (h : ps.length ≤ maxSegmentLength) : (Segment.ofPlates ps).wf = true := by
  rw [segment_wf_iff]
  exact ⟨h, cellsWf_cellsFrom 0 ps.length ps (by omega)⟩

@[simp] theorem segment_put_len (sg : Segment) (j v : Plate) : (sg.put j v).len = sg.len := rfl

/-- R41: every cell of a fresh segment reads 0. -/
@[simp] theorem segment_zeros_get (len j : Plate) : (Segment.zeros len).get j = 0 := rfl

/-- R37, R38: a cell after a write to one cell of its segment. -/
theorem segment_get_put (sg : Segment) (i j v : Plate) (h : sg.wf = true) :
    (sg.put j v).get i = if i = j then v else sg.get i := by
  rw [segment_wf_iff] at h
  rw [Segment.get, Segment.put, cellsGet_cellsPut 0 sg.len j.toNat i.toNat v sg.cells h.2]
  simp only [BitVec.toNat_inj, Segment.get]

/-! ### The table -/

theorem memory_wf_iff (m : Memory) :
    m.wf = true ↔ 1 ≤ m.tableSize ∧ (∀ sg ∈ m.table, sg.wf = true) ∧ m.poolWf = true := by
  rw [Memory.wf, Bool.and_eq_true, Bool.and_eq_true, decide_eq_true_eq, List.all_eq_true, and_assoc]

theorem memory_poolWf_iff (m : Memory) :
    m.poolWf = true ↔
      (∀ h ∈ m.pool, h ≠ 0 ∧ h.toNat < m.tableSize ∧ m.seg h = Segment.discarded) ∧ m.pool.Nodup := by
  simp only [Memory.poolWf, Bool.and_eq_true, decide_eq_true_eq, List.all_eq_true, and_assoc]

theorem memory_allocated_iff (m : Memory) (h : Plate) :
    m.allocated h = true ↔ h.toNat < m.tableSize ∧ h ∉ m.pool := by
  simp [Memory.allocated]

theorem memory_seg_wf (m : Memory) (h : Plate) (hwf : m.wf = true) : (m.seg h).wf = true := by
  rw [Memory.seg]
  cases hsg : m.table[h.toNat]? with
  | none => exact segment_discarded_wf
  | some sg => exact ((memory_wf_iff m).1 hwf).2.1 sg (List.mem_of_getElem? hsg)

@[simp] theorem memory_setSeg_pool (m : Memory) (h : Plate) (sg : Segment) : (m.setSeg h sg).pool = m.pool := rfl

@[simp] theorem memory_setSeg_tableSize (m : Memory) (h : Plate) (sg : Segment) :
    (m.setSeg h sg).tableSize = m.tableSize := by
  simp [Memory.setSeg, Memory.tableSize]

/-- Replacing one entry of the table leaves every other entry alone. -/
theorem memory_seg_setSeg (m : Memory) (h k : Plate) (sg : Segment) (hh : h.toNat < m.tableSize) :
    (m.setSeg h sg).seg k = if k = h then sg else m.seg k := by
  simp only [Memory.seg, Memory.setSeg, List.getElem?_set]
  by_cases hk : k = h
  · subst hk
    have hh' : k.toNat < m.table.length := hh
    rw [if_pos rfl, if_pos rfl, if_pos hh', Option.getD_some]
  · rw [if_neg hk, if_neg (fun e => hk (BitVec.eq_of_toNat_eq e.symm))]

theorem memory_setSeg_allocated (m : Memory) (h k : Plate) (sg : Segment) :
    (m.setSeg h sg).allocated k = m.allocated k := by
  simp only [Memory.allocated, memory_setSeg_tableSize, memory_setSeg_pool]

/-- Every entry is in the canonical form after one well-formed entry is put in. -/
theorem memory_setSeg_table_wf (m : Memory) (h : Plate) (sg : Segment) (hwf : m.wf = true) (hsg : sg.wf = true) :
    ∀ g ∈ (m.setSeg h sg).table, g.wf = true := by
  intro g hg
  rcases List.mem_or_eq_of_mem_set hg with h1 | h1
  · exact ((memory_wf_iff m).1 hwf).2.1 g h1
  · rw [h1]; exact hsg

/-- R31: handle 0 is always allocated. -/
theorem memory_zero_allocated (m : Memory) (hwf : m.wf = true) : m.allocated 0 = true := by
  have hm := (memory_wf_iff m).1 hwf
  rw [memory_allocated_iff]
  exact ⟨hm.1, fun h0 => (((memory_poolWf_iff m).1 hm.2.2).1 0 h0).1 rfl⟩

/-! ### The canonical form is kept by every memory operation -/

/-- A write into an allocated segment keeps the form. -/
theorem memory_setSeg_wf (m : Memory) (h : Plate) (sg : Segment) (hwf : m.wf = true) (ha : m.allocated h = true)
    (hsg : sg.wf = true) : (m.setSeg h sg).wf = true := by
  have hm := (memory_wf_iff m).1 hwf
  have hp := (memory_poolWf_iff m).1 hm.2.2
  have ha' := (memory_allocated_iff m h).1 ha
  rw [memory_wf_iff, memory_poolWf_iff, memory_setSeg_tableSize, memory_setSeg_pool]
  refine ⟨hm.1, memory_setSeg_table_wf m h sg hwf hsg, fun k hk => ?_, hp.2⟩
  have hkp := hp.1 k hk
  rw [memory_seg_setSeg m h k sg ha'.1, if_neg (fun e : k = h => ha'.2 (e ▸ hk))]
  exact hkp

/-- R35: everything the two checks can answer. -/
theorem checkAccess_ok_iff (m : Memory) (h j : Plate) :
    checkAccess m h j = .ok () ↔ m.allocated h = true ∧ j.toNat < m.len h := by
  unfold checkAccess
  by_cases ha : m.allocated h = false
  · simp [ha]
  · have ha' : m.allocated h = true := by simpa using ha
    by_cases hl : m.len h ≤ j.toNat
    · simp [ha', hl]
    · simp [ha', hl]; omega

/-- R37: a read that answers a plate answers the cell of an allocated segment. -/
theorem memRead_ok (m : Memory) (h j v : Plate) (hr : memRead m h j = .ok v) :
    m.allocated h = true ∧ j.toNat < m.len h ∧ v = (m.seg h).get j := by
  unfold memRead at hr
  cases hc : checkAccess m h j with
  | error e => rw [hc] at hr; cases hr
  | ok u =>
    rw [hc] at hr
    cases hr
    have := (checkAccess_ok_iff m h j).1 hc
    exact ⟨this.1, this.2, rfl⟩

/-- R38: a write that answers did exactly one thing. -/
theorem memWrite_ok (m m' : Memory) (h j v : Plate) (hw : memWrite m h j v = .ok m') :
    m.allocated h = true ∧ j.toNat < m.len h ∧ m' = m.setSeg h ((m.seg h).put j v) := by
  unfold memWrite at hw
  cases hc : checkAccess m h j with
  | error e => rw [hc] at hw; cases hw
  | ok u =>
    rw [hc] at hw
    cases hw
    have := (checkAccess_ok_iff m h j).1 hc
    exact ⟨this.1, this.2, rfl⟩

theorem memWrite_wf (m m' : Memory) (h j v : Plate) (hwf : m.wf = true) (hw : memWrite m h j v = .ok m') :
    m'.wf = true := by
  obtain ⟨ha, hj, rfl⟩ := memWrite_ok m m' h j v hw
  exact memory_setSeg_wf m h _ hwf ha (segment_put_wf _ j v (memory_seg_wf m h hwf) hj)

/-- R42: an abandon that answers released an allocated handle other than 0. -/
theorem segAbandon_ok (m m' : Memory) (h : Plate) (hq : segAbandon m h = .ok m') :
    h ≠ 0 ∧ m.allocated h = true ∧ m' = { (m.setSeg h Segment.discarded) with pool := h :: m.pool } := by
  unfold segAbandon at hq
  by_cases h0 : h = 0
  · rw [if_pos h0] at hq; cases hq
  · rw [if_neg h0] at hq
    by_cases ha : m.allocated h = false
    · rw [if_pos ha] at hq; cases hq
    · rw [if_neg ha] at hq
      cases hq
      exact ⟨h0, by simpa using ha, rfl⟩

theorem segAbandon_wf (m m' : Memory) (h : Plate) (hwf : m.wf = true) (hq : segAbandon m h = .ok m') :
    m'.wf = true := by
  obtain ⟨h0, ha, rfl⟩ := segAbandon_ok m m' h hq
  have hm := (memory_wf_iff m).1 hwf
  have hp := (memory_poolWf_iff m).1 hm.2.2
  have ha' := (memory_allocated_iff m h).1 ha
  have hs := memory_setSeg_tableSize m h Segment.discarded
  rw [memory_wf_iff, memory_poolWf_iff]
  refine ⟨by simpa [Memory.tableSize, Memory.setSeg] using hm.1,
    memory_setSeg_table_wf m h Segment.discarded hwf segment_discarded_wf, ?_, List.nodup_cons.2 ⟨ha'.2, hp.2⟩⟩
  intro k hk
  have hseg := memory_seg_setSeg m h k Segment.discarded ha'.1
  rcases List.mem_cons.1 hk with hk' | hk'
  · subst hk'
    refine ⟨h0, hs ▸ ha'.1, ?_⟩
    rw [if_pos rfl] at hseg
    exact hseg
  · obtain ⟨k0, k1, k2⟩ := hp.1 k hk'
    refine ⟨k0, hs ▸ k1, ?_⟩
    rw [if_neg (fun e : k = h => ha'.2 (e ▸ hk'))] at hseg
    exact hseg.trans k2

/-- R44: a load that answers copied an allocated segment into segment 0. -/
theorem segLoadProgram_ok (m m' : Memory) (h : Plate) (hq : segLoadProgram m h = .ok m') :
    m.allocated h = true ∧ m' = m.setSeg 0 (m.seg h) := by
  unfold segLoadProgram at hq
  by_cases ha : m.allocated h = false
  · rw [if_pos ha] at hq; cases hq
  · rw [if_neg ha] at hq
    cases hq
    exact ⟨by simpa using ha, rfl⟩

theorem segLoadProgram_wf (m m' : Memory) (h : Plate) (hwf : m.wf = true) (hq : segLoadProgram m h = .ok m') :
    m'.wf = true := by
  obtain ⟨_, rfl⟩ := segLoadProgram_ok m m' h hq
  exact memory_setSeg_wf m 0 _ hwf (memory_zero_allocated m hwf) (memory_seg_wf m h hwf)

/-- R40: reusing a member of the pool keeps the form. -/
theorem memory_reuse_wf (m : Memory) (h len : Plate) (hwf : m.wf = true) (hh : h ∈ m.pool) :
    (m.reuse h len).wf = true := by
  have hm := (memory_wf_iff m).1 hwf
  have hp := (memory_poolWf_iff m).1 hm.2.2
  have hs := memory_setSeg_tableSize m h (Segment.zeros len)
  rw [memory_wf_iff, memory_poolWf_iff]
  refine ⟨by simpa [Memory.tableSize, Memory.setSeg, Memory.reuse] using hm.1,
    memory_setSeg_table_wf m h _ hwf (segment_zeros_wf len), ?_, hp.2.filter _⟩
  intro k hk
  obtain ⟨hkp, hkh⟩ := List.mem_filter.1 hk
  obtain ⟨k0, k1, k2⟩ := hp.1 k hkp
  refine ⟨k0, hs ▸ k1, ?_⟩
  have hseg := memory_seg_setSeg m h k (Segment.zeros len) (hp.1 h hh).2.1
  rw [if_neg (of_decide_eq_true hkh)] at hseg
  exact hseg.trans k2

/-- R40: growing the table keeps the form; the other entries stay as they are. -/
theorem memory_grow_wf (m : Memory) (len : Plate) (hwf : m.wf = true) : (m.grow len).wf = true := by
  have hm := (memory_wf_iff m).1 hwf
  have hp := (memory_poolWf_iff m).1 hm.2.2
  rw [memory_wf_iff, memory_poolWf_iff]
  refine ⟨by simp [Memory.tableSize, Memory.grow], ?_, ?_, hp.2⟩
  · intro g hg
    rcases List.mem_append.1 hg with h1 | h1
    · exact hm.2.1 g h1
    · rw [List.mem_singleton.1 h1]; exact segment_zeros_wf len
  · intro k hk
    obtain ⟨k0, k1, k2⟩ := hp.1 k hk
    have k1' : k.toNat < m.table.length := k1
    refine ⟨k0, by simp only [Memory.tableSize, Memory.grow, List.length_append]; omega, ?_⟩
    rw [← k2]
    simp only [Memory.seg, Memory.grow, List.getElem?_append_left k1']

/-- D10: POOL_PICK takes a member of the pool. -/
theorem poolMember_mem (env : Env) (first : Plate) (others : List Plate) :
    poolMember env first others ∈ first :: others := by
  unfold poolMember
  rw [List.getD_eq_getElem?_getD]
  cases hx : (first :: others)[poolPosition env (first :: others)]? with
  | none => exact List.mem_cons_self
  | some h => exact List.mem_of_getElem? hx

/-- R107: "if the pool has one member it is that member". -/
theorem poolMember_single (env : Env) (h : Plate) : poolMember env h [] = h := by
  have := poolMember_mem env h []
  simpa using this

/-! ### Accesses -/

theorem memory_not_allocated_iff (m : Memory) (h : Plate) :
    m.allocated h = false ↔ ¬(h.toNat < m.tableSize ∧ h ∉ m.pool) := by
  rw [← Bool.not_eq_true, memory_allocated_iff]

theorem checkAccess_no_segment (m : Memory) (h j : Plate) (h1 : m.allocated h = false) :
    checkAccess m h j = .error ⟨.oobSegment, .handle h⟩ := by
  simp [checkAccess, h1]

theorem checkAccess_no_cell (m : Memory) (h j : Plate) (h1 : m.allocated h = true) (h2 : m.len h ≤ j.toNat) :
    checkAccess m h j = .error ⟨.oobCell, .cell h j⟩ := by
  simp [checkAccess, h1, h2]

theorem memRead_eq_ok (m : Memory) (h j : Plate) (h1 : m.allocated h = true) (h2 : j.toNat < m.len h) :
    memRead m h j = .ok ((m.seg h).get j) := by
  rw [memRead, (checkAccess_ok_iff m h j).2 ⟨h1, h2⟩]

/-- A read depends on whether the handle is allocated, on the segment's length and on the one cell. -/
theorem memRead_congr (m m' : Memory) (h j : Plate) (h1 : m'.allocated h = m.allocated h) (h2 : m'.len h = m.len h)
    (h3 : m.allocated h = true → j.toNat < m.len h → (m'.seg h).get j = (m.seg h).get j) :
    memRead m' h j = memRead m h j := by
  unfold memRead checkAccess
  rw [h1, h2]
  by_cases ha : m.allocated h = false
  · simp [ha]
  · simp only [ha]
    by_cases hl : m.len h ≤ j.toNat
    · simp [hl]
    · simp only [hl, if_false]
      rw [h3 (by simpa using ha) (by omega)]

/-- R40, R41: everything the reuse of a pool member does. -/
theorem memory_reuse_facts (m : Memory) (h len : Plate) (hwf : m.wf = true) (hh : h ∈ m.pool) :
    h ≠ 0 ∧ m.allocated h = false ∧ (m.reuse h len).allocated h = true ∧ (m.reuse h len).len h = len.toNat ∧
    (∀ j : Plate, j.toNat < len.toNat → memRead (m.reuse h len) h j = .ok 0) ∧
    (m.reuse h len).tableSize = m.tableSize ∧ (∀ k, k ∈ (m.reuse h len).pool ↔ k ∈ m.pool ∧ k ≠ h) ∧
    (∀ k j, k ≠ h → memRead (m.reuse h len) k j = memRead m k j) ∧ (∀ k, k ≠ h → (m.reuse h len).len k = m.len k) := by
  have hm := (memory_wf_iff m).1 hwf
  have hp := (memory_poolWf_iff m).1 hm.2.2
  have hs := memory_setSeg_tableSize m h (Segment.zeros len)
  have hseg : ∀ k, (m.reuse h len).seg k = if k = h then Segment.zeros len else m.seg k :=
    fun k => memory_seg_setSeg m h k (Segment.zeros len) (hp.1 h hh).2.1
  have hpool : ∀ k, k ∈ (m.reuse h len).pool ↔ k ∈ m.pool ∧ k ≠ h := by
    intro k; simp [Memory.reuse, List.mem_filter]
  have hts : (m.reuse h len).tableSize = m.tableSize := hs
  have hal : (m.reuse h len).allocated h = true := by
    rw [memory_allocated_iff, hts, hpool]
    exact ⟨(hp.1 h hh).2.1, fun e => e.2 rfl⟩
  have hlen : (m.reuse h len).len h = len.toNat := by
    rw [Memory.len, hseg, if_pos rfl]; rfl
  have hlen' : ∀ k, k ≠ h → (m.reuse h len).len k = m.len k := by
    intro k hk; rw [Memory.len, hseg, if_neg hk]; rfl
  refine ⟨(hp.1 h hh).1, ?_, hal, hlen, ?_, hts, hpool, ?_, hlen'⟩
  · rw [memory_not_allocated_iff]; exact fun e => e.2 hh
  · intro j hj
    rw [memRead_eq_ok _ _ _ hal (by rw [hlen]; exact hj), hseg, if_pos rfl]; rfl
  · intro k j hk
    apply memRead_congr
    · rw [Bool.eq_iff_iff, memory_allocated_iff, memory_allocated_iff, hts, hpool]
      tauto
    · exact hlen' k hk
    · intro _ _; rw [hseg, if_neg hk]

/-- R40, R41: everything the growth of the table does. -/
theorem memory_grow_facts (m : Memory) (len : Plate) (hwf : m.wf = true) (hsz : m.tableSize < plateCount) :
    m.newHandle.toNat = m.tableSize ∧
    m.newHandle ≠ 0 ∧ m.allocated m.newHandle = false ∧ 
    (m.pool = [] → (m.grow len).allocated m.newHandle = true ∧ 
    (∀ j : Plate, j.toNat < len.toNat → memRead (m.grow len) m.newHandle j = .ok 0)) ∧ (m.grow len).len m.newHandle = len.toNat ∧
    (m.grow len).tableSize = m.tableSize + 1 ∧ 
    (∀ k j, k ≠ m.newHandle → memRead (m.grow len) k j = memRead m k j) ∧ (∀ k, k ≠ m.newHandle → (m.grow len).len k = m.len k) := by
  have hm := (memory_wf_iff m).1 hwf
  have hn : m.newHandle.toNat = m.tableSize := by
    rw [Memory.newHandle, BitVec.toNat_ofNat, Nat.mod_eq_of_lt]
    simpa [plateCount] using hsz
  have hts : (m.grow len).tableSize = m.tableSize + 1 := by simp [Memory.grow, Memory.tableSize]
  have hseg : ∀ k, (m.grow len).seg k = if k = m.newHandle then Segment.zeros len else m.seg k := by
    intro k
    by_cases hk : k = m.newHandle
    · rw [if_pos hk, hk, Memory.seg, Memory.grow, hn]
      simp [Memory.tableSize]
    · rw [if_neg hk, Memory.seg, Memory.grow, Memory.seg]
      have : k.toNat ≠ m.table.length := fun e => hk (BitVec.eq_of_toNat_eq (e.trans hn.symm))
      by_cases hlt : k.toNat < m.table.length
      · simp only [List.getElem?_append_left hlt]
      · rw [List.getElem?_eq_none (by simp; omega), List.getElem?_eq_none (by omega)]
  have hlen : (m.grow len).len m.newHandle = len.toNat := by
    rw [Memory.len, hseg, if_pos rfl]; rfl
  have hlen' : ∀ k, k ≠ m.newHandle → (m.grow len).len k = m.len k := by
    intro k hk; rw [Memory.len, hseg, if_neg hk]; rfl
  refine ⟨hn, ?_, ?_, ?_, hlen, hts, ?_, hlen'⟩
  · intro e
    rw [e] at hn
    have h1 := hm.1
    have hn' : 0 = m.tableSize := hn
    omega
  · rw [memory_not_allocated_iff]; omega
  · intro hp
    have hal : (m.grow len).allocated m.newHandle = true := by
      rw [memory_allocated_iff, hts, hn]
      exact ⟨by omega, by simp [Memory.grow, hp]⟩
    refine ⟨hal, fun j hj => ?_⟩
    rw [memRead_eq_ok _ _ _ hal (by rw [hlen]; exact hj), hseg, if_pos rfl]; rfl
  · intro k j hk
    apply memRead_congr
    · rw [Bool.eq_iff_iff, memory_allocated_iff, memory_allocated_iff, hts]
      have : k.toNat ≠ m.tableSize := fun e => hk (BitVec.eq_of_toNat_eq (e.trans hn.symm))
      constructor
      · rintro ⟨a, b⟩; exact ⟨by omega, b⟩
      · rintro ⟨a, b⟩; exact ⟨by omega, b⟩
    · exact hlen' k hk
    · intro _ _; rw [hseg, if_neg hk]

/-- R42: everything an abandonment that is answered does. -/
theorem segAbandon_facts (m : Memory) (h : Plate) (h0 : h ≠ 0) (ha : m.allocated h = true) :
   ∃ m', segAbandon m h = .ok m' ∧ (∀ k, k ∈ m'.pool ↔ k = h ∨ k ∈ m.pool) ∧ m'.allocated h = false ∧ m'.tableSize = m.tableSize ∧ (∀ k j, k ≠ h → memRead m' k j = memRead m k j) := by
  have ha' := (memory_allocated_iff m h).1 ha
  have hts : Memory.tableSize { (m.setSeg h Segment.discarded) with pool := h :: m.pool } = m.tableSize := memory_setSeg_tableSize ..
  refine ⟨_, by rw [segAbandon, if_neg h0, if_neg (by simp [ha])], fun k => List.mem_cons, ?_, hts, ?_⟩
  · rw [memory_not_allocated_iff]; intro e; exact e.2 List.mem_cons_self
  · intro k j hk
    have hseg : Memory.seg { (m.setSeg h Segment.discarded) with pool := h :: m.pool } k = m.seg k := by
      have := memory_seg_setSeg m h k Segment.discarded ha'.1
      rw [if_neg hk] at this; exact this
    apply memRead_congr
    · rw [Bool.eq_iff_iff, memory_allocated_iff, memory_allocated_iff, hts]
      simp [hk]
    · simp only [Memory.len, hseg]
    · intro _ _; rw [hseg]

end Sys2Proof.Machine
end

