-- ==== Sys2Proof/Laws/State.lean ====
section
/-! SUPPORT. One lemma per field per update of the state, true by rfl, and the register file's read-after-write law. -/

namespace Sys2Proof.Machine

/-! ### writeReg -/

@[simp] theorem writeReg_x (i : RegIdx) (v : Plate) (s : State) : (writeReg i v s).x = s.x.set i.toNat v i.isLt := rfl
@[simp] theorem writeReg_pc (i : RegIdx) (v : Plate) (s : State) : (writeReg i v s).pc = s.pc := rfl
@[simp] theorem writeReg_run (i : RegIdx) (v : Plate) (s : State) : (writeReg i v s).run = s.run := rfl
@[simp] theorem writeReg_fault (i : RegIdx) (v : Plate) (s : State) : (writeReg i v s).fault = s.fault := rfl
@[simp] theorem writeReg_mem (i : RegIdx) (v : Plate) (s : State) : (writeReg i v s).mem = s.mem := rfl
@[simp] theorem writeReg_out (i : RegIdx) (v : Plate) (s : State) : (writeReg i v s).out = s.out := rfl
@[simp] theorem writeReg_inPos (i : RegIdx) (v : Plate) (s : State) : (writeReg i v s).inPos = s.inPos := rfl
@[simp] theorem writeReg_env (i : RegIdx) (v : Plate) (s : State) : (writeReg i v s).env = s.env := rfl

/-! ### setPc -/

@[simp] theorem setPc_x (t : Plate) (s : State) : (setPc t s).x = s.x := rfl
@[simp] theorem setPc_pc (t : Plate) (s : State) : (setPc t s).pc = t := rfl
@[simp] theorem setPc_run (t : Plate) (s : State) : (setPc t s).run = s.run := rfl
@[simp] theorem setPc_fault (t : Plate) (s : State) : (setPc t s).fault = s.fault := rfl
@[simp] theorem setPc_mem (t : Plate) (s : State) : (setPc t s).mem = s.mem := rfl
@[simp] theorem setPc_out (t : Plate) (s : State) : (setPc t s).out = s.out := rfl
@[simp] theorem setPc_inPos (t : Plate) (s : State) : (setPc t s).inPos = s.inPos := rfl
@[simp] theorem setPc_env (t : Plate) (s : State) : (setPc t s).env = s.env := rfl

/-! ### raiseFault -/

@[simp] theorem raiseFault_x (c : FaultCause) (w : Option Plate) (s : State) : (raiseFault c w s).x = s.x := rfl
@[simp] theorem raiseFault_pc (c : FaultCause) (w : Option Plate) (s : State) : (raiseFault c w s).pc = s.pc := rfl
@[simp] theorem raiseFault_run (c : FaultCause) (w : Option Plate) (s : State) : (raiseFault c w s).run = .faulted := rfl
@[simp] theorem raiseFault_fault (c : FaultCause) (w : Option Plate) (s : State) : (raiseFault c w s).fault = some { kind := c.kind, pc := s.pc, word := w, info := c.info } := rfl
@[simp] theorem raiseFault_mem (c : FaultCause) (w : Option Plate) (s : State) : (raiseFault c w s).mem = s.mem := rfl
@[simp] theorem raiseFault_out (c : FaultCause) (w : Option Plate) (s : State) : (raiseFault c w s).out = s.out := rfl
@[simp] theorem raiseFault_inPos (c : FaultCause) (w : Option Plate) (s : State) : (raiseFault c w s).inPos = s.inPos := rfl
@[simp] theorem raiseFault_env (c : FaultCause) (w : Option Plate) (s : State) : (raiseFault c w s).env = s.env := rfl

/-! ### raiseInExecute -/

@[simp] theorem raiseInExecute_x (c : FaultCause) (s : State) : (raiseInExecute c s).x = s.x := rfl
@[simp] theorem raiseInExecute_pc (c : FaultCause) (s : State) : (raiseInExecute c s).pc = s.pc := rfl
@[simp] theorem raiseInExecute_run (c : FaultCause) (s : State) : (raiseInExecute c s).run = .faulted := rfl
@[simp] theorem raiseInExecute_fault (c : FaultCause) (s : State) : (raiseInExecute c s).fault = some { kind := c.kind, pc := s.pc, word := currentWord s, info := c.info } := rfl
@[simp] theorem raiseInExecute_mem (c : FaultCause) (s : State) : (raiseInExecute c s).mem = s.mem := rfl
@[simp] theorem raiseInExecute_out (c : FaultCause) (s : State) : (raiseInExecute c s).out = s.out := rfl
@[simp] theorem raiseInExecute_inPos (c : FaultCause) (s : State) : (raiseInExecute c s).inPos = s.inPos := rfl
@[simp] theorem raiseInExecute_env (c : FaultCause) (s : State) : (raiseInExecute c s).env = s.env := rfl

/-! ### raiseDecodeError -/

@[simp] theorem raiseDecodeError_x (w : Plate) (s : State) : (raiseDecodeError w s).x = s.x := rfl
@[simp] theorem raiseDecodeError_pc (w : Plate) (s : State) : (raiseDecodeError w s).pc = s.pc := rfl
@[simp] theorem raiseDecodeError_run (w : Plate) (s : State) : (raiseDecodeError w s).run = .faulted := rfl
@[simp] theorem raiseDecodeError_fault (w : Plate) (s : State) : (raiseDecodeError w s).fault = some { kind := .decodeError, pc := s.pc, word := some w, info := .absent } := rfl
@[simp] theorem raiseDecodeError_mem (w : Plate) (s : State) : (raiseDecodeError w s).mem = s.mem := rfl
@[simp] theorem raiseDecodeError_out (w : Plate) (s : State) : (raiseDecodeError w s).out = s.out := rfl
@[simp] theorem raiseDecodeError_inPos (w : Plate) (s : State) : (raiseDecodeError w s).inPos = s.inPos := rfl
@[simp] theorem raiseDecodeError_env (w : Plate) (s : State) : (raiseDecodeError w s).env = s.env := rfl

/-! ### stopRunning -/

@[simp] theorem stopRunning_x (s : State) : (stopRunning s).x = s.x := rfl
@[simp] theorem stopRunning_pc (s : State) : (stopRunning s).pc = s.pc := rfl
@[simp] theorem stopRunning_run (s : State) : (stopRunning s).run = .halted := rfl
@[simp] theorem stopRunning_fault (s : State) : (stopRunning s).fault = s.fault := rfl
@[simp] theorem stopRunning_mem (s : State) : (stopRunning s).mem = s.mem := rfl
@[simp] theorem stopRunning_out (s : State) : (stopRunning s).out = s.out := rfl
@[simp] theorem stopRunning_inPos (s : State) : (stopRunning s).inPos = s.inPos := rfl
@[simp] theorem stopRunning_env (s : State) : (stopRunning s).env = s.env := rfl

/-! ### setMem -/

@[simp] theorem setMem_x (m : Memory) (s : State) : (setMem m s).x = s.x := rfl
@[simp] theorem setMem_pc (m : Memory) (s : State) : (setMem m s).pc = s.pc := rfl
@[simp] theorem setMem_run (m : Memory) (s : State) : (setMem m s).run = s.run := rfl
@[simp] theorem setMem_fault (m : Memory) (s : State) : (setMem m s).fault = s.fault := rfl
@[simp] theorem setMem_mem (m : Memory) (s : State) : (setMem m s).mem = m := rfl
@[simp] theorem setMem_out (m : Memory) (s : State) : (setMem m s).out = s.out := rfl
@[simp] theorem setMem_inPos (m : Memory) (s : State) : (setMem m s).inPos = s.inPos := rfl
@[simp] theorem setMem_env (m : Memory) (s : State) : (setMem m s).env = s.env := rfl

/-! ### countDraw -/

@[simp] theorem countDraw_x (s : State) : (countDraw s).x = s.x := rfl
@[simp] theorem countDraw_pc (s : State) : (countDraw s).pc = s.pc := rfl
@[simp] theorem countDraw_run (s : State) : (countDraw s).run = s.run := rfl
@[simp] theorem countDraw_fault (s : State) : (countDraw s).fault = s.fault := rfl
@[simp] theorem countDraw_mem (s : State) : (countDraw s).mem = s.mem := rfl
@[simp] theorem countDraw_out (s : State) : (countDraw s).out = s.out := rfl
@[simp] theorem countDraw_inPos (s : State) : (countDraw s).inPos = s.inPos := rfl
@[simp] theorem countDraw_env (s : State) : (countDraw s).env = { s.env with poolDraws := s.env.poolDraws + 1 } := rfl

/-! ### useIoAnswer -/

@[simp] theorem useIoAnswer_x (s : State) : (useIoAnswer s).x = s.x := rfl
@[simp] theorem useIoAnswer_pc (s : State) : (useIoAnswer s).pc = s.pc := rfl
@[simp] theorem useIoAnswer_run (s : State) : (useIoAnswer s).run = s.run := rfl
@[simp] theorem useIoAnswer_fault (s : State) : (useIoAnswer s).fault = s.fault := rfl
@[simp] theorem useIoAnswer_mem (s : State) : (useIoAnswer s).mem = s.mem := rfl
@[simp] theorem useIoAnswer_out (s : State) : (useIoAnswer s).out = s.out := rfl
@[simp] theorem useIoAnswer_inPos (s : State) : (useIoAnswer s).inPos = s.inPos := rfl
@[simp] theorem useIoAnswer_env (s : State) : (useIoAnswer s).env = { s.env with ioErrors := s.env.ioErrors.tail } := rfl

/-! ### The register file (R11, R12) -/

theorem readReg_writeReg (s : State) (i j : RegIdx) (v : Plate) :
    readReg (writeReg i v s) j = if i = j then v else readReg s j := by
  simp only [readReg, writeReg_x, Vector.getElem_set, BitVec.toNat_inj]

@[simp] theorem readReg_writeReg_same (s : State) (i : RegIdx) (v : Plate) : readReg (writeReg i v s) i = v := by
  rw [readReg_writeReg, if_pos rfl]

theorem readReg_writeReg_other (s : State) (i j : RegIdx) (v : Plate) (h : j ≠ i) :
    readReg (writeReg i v s) j = readReg s j := by
  rw [readReg_writeReg, if_neg (Ne.symm h)]

/-- A register reads the same in two states with the same register file. -/
theorem readReg_congr (s t : State) (h : t.x = s.x) (i : RegIdx) : readReg t i = readReg s i := by
  simp only [readReg, h]

@[simp] theorem readReg_setPc (t : Plate) (s : State) (i : RegIdx) : readReg (setPc t s) i = readReg s i := rfl
@[simp] theorem readReg_raiseFault (c : FaultCause) (w : Option Plate) (s : State) (i : RegIdx) : readReg (raiseFault c w s) i = readReg s i := rfl
@[simp] theorem readReg_raiseInExecute (c : FaultCause) (s : State) (i : RegIdx) : readReg (raiseInExecute c s) i = readReg s i := rfl
@[simp] theorem readReg_raiseDecodeError (w : Plate) (s : State) (i : RegIdx) : readReg (raiseDecodeError w s) i = readReg s i := rfl
@[simp] theorem readReg_stopRunning (s : State) (i : RegIdx) : readReg (stopRunning s) i = readReg s i := rfl
@[simp] theorem readReg_setMem (m : Memory) (s : State) (i : RegIdx) : readReg (setMem m s) i = readReg s i := rfl
@[simp] theorem readReg_countDraw (s : State) (i : RegIdx) : readReg (countDraw s) i = readReg s i := rfl
@[simp] theorem readReg_useIoAnswer (s : State) (i : RegIdx) : readReg (useIoAnswer s) i = readReg s i := rfl

/-! ### Reset (R161 to R165) -/

/-- Every register of a machine reset with any image reads 0 (R161). -/
theorem readReg_resetWith (image : List Plate) (env : Env) (i : RegIdx) : readReg (State.resetWith image env) i = 0 := by
  simp only [readReg, State.resetWith, Vector.getElem_replicate]

/-- The fixed reset state is the reset with the empty image and the default arguments. -/
theorem reset_eq_resetWith : State.reset = State.resetWith [] Env.atReset := rfl

/-! ### Advance (R84) -/

/-- Everything `advance` can do: it keeps the state, or adds 1 to the `pc` of a running machine. -/
theorem advance_cases (i : Instr) (s : State) :
    advance i s = s ∨ (s.run = .running ∧ i.isLoadprog = false ∧ advance i s = setPc (s.pc + 1) s) := by
  unfold advance
  cases hrun : s.run with
  | running => cases hl : i.isLoadprog with
    | true => exact .inl (by simp)
    | false => exact .inr ⟨rfl, rfl, by simp⟩
  | halted => exact .inl rfl
  | faulted => exact .inl rfl

@[simp] theorem advance_x (i : Instr) (s : State) : (advance i s).x = s.x := by
  rcases advance_cases i s with h | ⟨_, _, h⟩ <;> rw [h]
  rfl

@[simp] theorem advance_run (i : Instr) (s : State) : (advance i s).run = s.run := by
  rcases advance_cases i s with h | ⟨_, _, h⟩ <;> rw [h]
  rfl

@[simp] theorem advance_fault (i : Instr) (s : State) : (advance i s).fault = s.fault := by
  rcases advance_cases i s with h | ⟨_, _, h⟩ <;> rw [h]
  rfl

@[simp] theorem advance_mem (i : Instr) (s : State) : (advance i s).mem = s.mem := by
  rcases advance_cases i s with h | ⟨_, _, h⟩ <;> rw [h]
  rfl

@[simp] theorem advance_out (i : Instr) (s : State) : (advance i s).out = s.out := by
  rcases advance_cases i s with h | ⟨_, _, h⟩ <;> rw [h]
  rfl

@[simp] theorem advance_inPos (i : Instr) (s : State) : (advance i s).inPos = s.inPos := by
  rcases advance_cases i s with h | ⟨_, _, h⟩ <;> rw [h]
  rfl

@[simp] theorem advance_env (i : Instr) (s : State) : (advance i s).env = s.env := by
  rcases advance_cases i s with h | ⟨_, _, h⟩ <;> rw [h]
  rfl

end Sys2Proof.Machine
end

