-- ==== Sys2Proof/Laws/Ops.lean ====
section
/-! SUPPORT. One lemma per shared operation that says everything it can do, and one per meaning and for the step: the
lemmas a proof cites instead of unfolding them. -/

namespace Sys2Proof.Machine

/-! ### Shared operations -/

/-- R83, R134: an instruction with one transaction always answers a next state: the fault entry, or what follows. -/
theorem orFault_next {α : Type} (answer : Except FaultCause α) (s t : State) (k : α → State)
    (h : orFault answer s k = .next t) :
    (∃ cause, answer = .error cause ∧ t = raiseInExecute cause s) ∨ (∃ v, answer = .ok v ∧ t = k v) := by
  cases answer with
  | error cause => exact .inl ⟨cause, rfl, by cases h; rfl⟩
  | ok v => exact .inr ⟨v, rfl, by cases h; rfl⟩

/-- R36: everything a fetch can answer. -/
theorem fetch_ok_iff (s : State) (w : Plate) :
    fetch s = .ok w ↔ s.pc.toNat < s.mem.len 0 ∧ w = (s.mem.seg 0).get s.pc := by
  unfold fetch fetchPlate
  by_cases hl : s.mem.len 0 ≤ s.pc.toNat
  · rw [if_pos hl]
    exact ⟨fun h => (nomatch h), fun h => absurd h.1 (by omega)⟩
  · rw [if_neg hl]
    exact ⟨fun h => ⟨by omega, by cases h; rfl⟩, fun h => by rw [h.2]⟩

/-- R81: a fetch that fails is a fetch beyond the length of segment 0. -/
theorem fetch_error (s : State) (c : FaultCause) (h : fetch s = .error c) :
    s.mem.len 0 ≤ s.pc.toNat ∧ c = ⟨.oobPc, .pc s.pc⟩ := by
  unfold fetch fetchPlate at h
  by_cases hl : s.mem.len 0 ≤ s.pc.toNat
  · rw [if_pos hl] at h; cases h; exact ⟨hl, rfl⟩
  · rw [if_neg hl] at h; cases h

/-- The recorded word is the fetched word. -/
theorem currentWord_of_fetch (s : State) (w : Plate) (h : fetch s = .ok w) : currentWord s = some w := by
  rw [currentWord, h]

/-- R40: everything an allocation can answer with a handle: a member of the pool is reused, or the table grows. -/
theorem segAlloc_ok (len h : Plate) (s t : State) (ha : segAlloc len s = .ok (h, t)) :
    (∃ first others, s.mem.pool = first :: others ∧ h = poolMember s.env first others ∧
      t = countDraw (setMem (s.mem.reuse h len) (takeAllocAnswer s).2)) ∨
    (s.mem.pool = [] ∧ s.mem.tableSize < s.env.maxTable ∧ h = s.mem.newHandle ∧
      t = setMem (s.mem.grow len) (takeAllocAnswer s).2) := by
  unfold segAlloc at ha
  cases hans : s.env.allocFailures.headD false with
  | true => simp only [takeAllocAnswer, hans] at ha; cases ha
  | false =>
    simp only [takeAllocAnswer, hans, segAllocHeld] at ha ⊢
    cases hp : s.mem.pool with
    | nil =>
      rw [hp] at ha
      simp only at ha
      by_cases hm : s.env.maxTable ≤ s.mem.tableSize
      · rw [if_pos hm] at ha; cases ha
      · rw [if_neg hm] at ha; cases ha
        exact .inr ⟨rfl, by omega, rfl, rfl⟩
    | cons first others =>
      rw [hp] at ha
      cases ha
      exact .inl ⟨first, others, rfl, rfl, rfl⟩

/-- R48: what the sink's request does when it is answered. -/
theorem outRequest_done (b : Byte) (s : State) (h : ioFails s = false) :
    outRequest b s = (.done, useIoAnswer { s with out := s.out ++ [b] }) := by
  rw [outRequest, h]; rfl

/-- R49: what the source's request does while bytes are left. -/
theorem inRequest_byte (b : Byte) (s : State) (h : ioFails s = false) (hb : s.env.input[s.inPos]? = some b) :
    inRequest s = (.byte b, useIoAnswer { s with inPos := s.inPos + 1 }) := by
  rw [inRequest, h, hb]; rfl

/-- R49: what the source's request does at the end of INPUT. -/
theorem inRequest_end (s : State) (h : ioFails s = false) (hb : s.env.input[s.inPos]? = none) :
    inRequest s = (.endOfInput, useIoAnswer s) := by
  rw [inRequest, h, hb]; rfl

/-! ### Meanings: everything each can answer -/

theorem execCmov_next (a b c : RegIdx) (s : State) :
    execCmov a b c s = .next s ∨ execCmov a b c s = .next (writeReg a (readReg s b) s) := by
  unfold execCmov
  cases isZero (readReg s c)
  · exact .inr rfl
  · exact .inl rfl

theorem execDiv_next (a b c : RegIdx) (s t : State) (h : execDiv a b c s = .next t) :
    t = raiseInExecute ⟨.divideByZero, .absent⟩ s ∨ ∃ q, t = writeReg a q s := by
  unfold execDiv aluDiv at h
  cases hz : isZero (readReg s c) with
  | true => rw [hz] at h; cases h; exact .inl rfl
  | false => rw [hz] at h; cases h; exact .inr ⟨_, rfl⟩

theorem execAidx_next (a b c : RegIdx) (s t : State) (h : execAidx a b c s = .next t) :
    (∃ cause, memRead s.mem (readReg s b) (readReg s c) = .error cause ∧ t = raiseInExecute cause s) ∨
    (∃ v, memRead s.mem (readReg s b) (readReg s c) = .ok v ∧ t = writeReg a v s) :=
  orFault_next _ s t _ h

theorem execAmend_next (a b c : RegIdx) (s t : State) (h : execAmend a b c s = .next t) :
    (∃ cause, memWrite s.mem (readReg s a) (readReg s b) (readReg s c) = .error cause ∧ t = raiseInExecute cause s) ∨
    (∃ m, memWrite s.mem (readReg s a) (readReg s b) (readReg s c) = .ok m ∧ t = setMem m s) :=
  orFault_next _ s t _ h

theorem execAlloc_next (b c : RegIdx) (s t : State) (h : execAlloc b c s = .next t) :
    ∃ k u, segAlloc (readReg s c) s = .ok (k, u) ∧ t = writeReg b k u := by
  unfold execAlloc at h
  cases hs : segAlloc (readReg s c) s with
  | error r => rw [hs] at h; cases h
  | ok ku =>
    obtain ⟨k, u⟩ := ku
    rw [hs] at h; cases h
    exact ⟨k, u, rfl, rfl⟩

theorem execAband_next (c : RegIdx) (s t : State) (h : execAband c s = .next t) :
    (∃ cause, segAbandon s.mem (readReg s c) = .error cause ∧ t = raiseInExecute cause s) ∨
    (∃ m, segAbandon s.mem (readReg s c) = .ok m ∧ t = setMem m s) :=
  orFault_next _ s t _ h

theorem execOut_next (c : RegIdx) (s t : State) (h : execOut c s = .next t) :
    (ioFails s = true ∧ t = raiseInExecute ⟨.ioError, .absent⟩ s) ∨
    (ioFails s = false ∧ t = useIoAnswer { s with out := s.out ++ [lowByte (readReg s c)] }) := by
  unfold execOut at h
  cases hf : ioFails s with
  | true => rw [outRequest, hf] at h; cases h; exact .inl ⟨rfl, rfl⟩
  | false => rw [outRequest_done _ s hf] at h; cases h; exact .inr ⟨rfl, rfl⟩

theorem execInp_next (c : RegIdx) (s t : State) (h : execInp c s = .next t) :
    (ioFails s = true ∧ t = raiseInExecute ⟨.ioError, .absent⟩ s) ∨
    (ioFails s = false ∧ s.env.input[s.inPos]? = none ∧ t = writeReg c endOfInputValue (useIoAnswer s)) ∨
    (ioFails s = false ∧ ∃ b, s.env.input[s.inPos]? = some b ∧
      t = writeReg c (widenByte b) (useIoAnswer { s with inPos := s.inPos + 1 })) := by
  unfold execInp at h
  cases hf : ioFails s with
  | true => rw [inRequest, hf] at h; cases h; exact .inl ⟨rfl, rfl⟩
  | false =>
    cases hb : s.env.input[s.inPos]? with
    | none => rw [inRequest_end s hf hb] at h; cases h; exact .inr (.inl ⟨rfl, rfl, rfl⟩)
    | some b => rw [inRequest_byte b s hf hb] at h; cases h; exact .inr (.inr ⟨rfl, b, rfl, rfl⟩)

theorem execLoadprog_next (b c : RegIdx) (s t : State) (h : execLoadprog b c s = .next t) :
    (readReg s b = 0 ∧ t = setPc (readReg s c) s) ∨
    (readReg s b ≠ 0 ∧ ∃ cause, segLoadProgram s.mem (readReg s b) = .error cause ∧ t = raiseInExecute cause s) ∨
    (readReg s b ≠ 0 ∧ ∃ m, segLoadProgram s.mem (readReg s b) = .ok m ∧
      t = setPc (readReg s c) (setMem m s)) := by
  unfold execLoadprog at h
  cases hz : isZero (readReg s b) with
  | true =>
    rw [hz] at h; cases h
    exact .inl ⟨by simpa [isZero] using hz, rfl⟩
  | false =>
    rw [hz] at h
    have hne : readReg s b ≠ 0 := by simpa [isZero] using hz
    rcases orFault_next _ s t _ h with hc | hm
    · exact .inr (.inl ⟨hne, hc⟩)
    · exact .inr (.inr ⟨hne, hm⟩)

/-- No instruction answers the model's fault outcome: the spec's faults are next states. -/
theorem exec_no_fault (i : Instr) (s : State) (f : Fault) : exec i s ≠ .fault f := by
  have hor : ∀ {α : Type} (an : Except FaultCause α) (k : α → State), orFault an s k ≠ .fault f := by
    intro α an k h
    cases an <;> cases h
  cases i <;> intro h
  case cmov a b c =>
    rcases execCmov_next a b c s with h1 | h1 <;> exact nomatch h1.symm.trans h
  case div => exact hor _ _ h
  case aidx => exact hor _ _ h
  case amend => exact hor _ _ h
  case aband => exact hor _ _ h
  case alloc b c =>
    change execAlloc b c s = _ at h
    unfold execAlloc at h
    cases hs : segAlloc (readReg s c) s <;> rw [hs] at h <;> cases h
  case out c =>
    change execOut c s = _ at h
    unfold execOut at h
    rcases hs : outRequest (lowByte (readReg s c)) s with ⟨_ | _, u⟩ <;> rw [hs] at h <;> cases h
  case inp c =>
    change execInp c s = _ at h
    unfold execInp at h
    rcases hs : inRequest s with ⟨_ | _ | _, u⟩ <;> rw [hs] at h <;> cases h
  case loadprog b c =>
    change execLoadprog b c s = _ at h
    unfold execLoadprog at h
    cases hz : isZero (readReg s b)
    · rw [hz] at h; exact hor _ _ h
    · rw [hz] at h; cases h
  all_goals cases h

/-! ### The step -/

theorem step_running (s : State) (h : s.run = .running) : step s = cycle s := by
  rw [step, stepByRun, h]

/-- Only a running machine has a successor (R80), and its cycle either takes the fetch fault (R81) or executes the
decoded instruction and advances (R82 to R84). -/
theorem step_next (s t : State) (h : step s = .next t) :
    s.run = .running ∧
    ((∃ cause, fetch s = .error cause ∧ t = raiseFault cause none s) ∨
     (∃ w u, fetch s = .ok w ∧ exec (decode w) s = .next u ∧ t = advance (decode w) u)) := by
  unfold step stepByRun at h
  cases hr : s.run with
  | halted => rw [hr] at h; cases h
  | faulted => rw [hr] at h; cases h
  | running =>
    rw [hr] at h
    refine ⟨rfl, ?_⟩
    change cycle s = .next t at h
    unfold cycle at h
    cases hf : fetch s with
    | error cause => rw [hf] at h; cases h; exact .inl ⟨cause, rfl, rfl⟩
    | ok w =>
      rw [hf] at h
      change execAndAdvance (decode w) s = .next t at h
      unfold execAndAdvance at h
      cases he : exec (decode w) s with
      | next u => rw [he] at h; cases h; exact .inr ⟨w, u, rfl, he, rfl⟩
      | fault r => rw [he] at h; cases h
      | refused r => rw [he] at h; cases h

end Sys2Proof.Machine
end

