-- ==== Sys2Proof/Laws/PerInstr.lean ====
section
/-! SUPPORT. The per-instruction family EncodeMatchesRow: every instruction's canonical word matches its own row of the
opcode map (spec/30_encoding.md R73). -/

namespace Sys2Proof.Laws

/-- The opcode of an instruction's row (R73). -/
def rowOpcode : Instr → BitVec 4
  | .cmov _ _ _ => 0
  | .aidx _ _ _ => 1
  | .amend _ _ _ => 2
  | .add _ _ _ => 3
  | .mul _ _ _ => 4
  | .div _ _ _ => 5
  | .nand _ _ _ => 6
  | .halt => 7
  | .alloc _ _ => 8
  | .aband _ => 9
  | .out _ => 10
  | .inp _ => 11
  | .loadprog _ _ => 12
  | .ortho _ _ => 13
  | .illegal14 _ => 14
  | .illegal15 _ => 15

/-- R73: the word of an instruction carries the opcode of its row in bits 31:28. -/
def EncodeMatchesRow.Statement (i : Instr) : Prop := opcodeField (encode i) = rowOpcode i

theorem EncodeMatchesRow.cmov (a b c : RegIdx) : EncodeMatchesRow.Statement (.cmov a b c) :=
  opcodeField_encodeS _ _ _ _

theorem EncodeMatchesRow.aidx (a b c : RegIdx) : EncodeMatchesRow.Statement (.aidx a b c) :=
  opcodeField_encodeS _ _ _ _

theorem EncodeMatchesRow.amend (a b c : RegIdx) : EncodeMatchesRow.Statement (.amend a b c) :=
  opcodeField_encodeS _ _ _ _

theorem EncodeMatchesRow.add (a b c : RegIdx) : EncodeMatchesRow.Statement (.add a b c) :=
  opcodeField_encodeS _ _ _ _

theorem EncodeMatchesRow.mul (a b c : RegIdx) : EncodeMatchesRow.Statement (.mul a b c) :=
  opcodeField_encodeS _ _ _ _

theorem EncodeMatchesRow.div (a b c : RegIdx) : EncodeMatchesRow.Statement (.div a b c) :=
  opcodeField_encodeS _ _ _ _

theorem EncodeMatchesRow.nand (a b c : RegIdx) : EncodeMatchesRow.Statement (.nand a b c) :=
  opcodeField_encodeS _ _ _ _

theorem EncodeMatchesRow.halt : EncodeMatchesRow.Statement .halt :=
  opcodeField_encodeS _ _ _ _

theorem EncodeMatchesRow.alloc (b c : RegIdx) : EncodeMatchesRow.Statement (.alloc b c) :=
  opcodeField_encodeS _ _ _ _

theorem EncodeMatchesRow.aband (c : RegIdx) : EncodeMatchesRow.Statement (.aband c) :=
  opcodeField_encodeS _ _ _ _

theorem EncodeMatchesRow.out (c : RegIdx) : EncodeMatchesRow.Statement (.out c) :=
  opcodeField_encodeS _ _ _ _

theorem EncodeMatchesRow.inp (c : RegIdx) : EncodeMatchesRow.Statement (.inp c) :=
  opcodeField_encodeS _ _ _ _

theorem EncodeMatchesRow.loadprog (b c : RegIdx) : EncodeMatchesRow.Statement (.loadprog b c) :=
  opcodeField_encodeS _ _ _ _

theorem EncodeMatchesRow.ortho (t : RegIdx) (imm : Imm) : EncodeMatchesRow.Statement (.ortho t imm) :=
  opcodeField_encodeL _ _

theorem EncodeMatchesRow.illegal14 (rest : BitVec 28) : EncodeMatchesRow.Statement (.illegal14 rest) :=
  opcodeField_encodeIllegal _ _

theorem EncodeMatchesRow.illegal15 (rest : BitVec 28) : EncodeMatchesRow.Statement (.illegal15 rest) :=
  opcodeField_encodeIllegal _ _

end Sys2Proof.Laws
end

