-- ==== Sys2Proof/Laws/Steps.lean ====
section
/-! SUPPORT. What any instruction can do, said once (exec_cases), the step of a fetched word, the advance, and induction
over runs. -/

namespace Sys2Proof.Machine

open Sys2Proof.Laws

theorem isZero_iff (v : Plate) : isZero v = true ↔ v = 0 := by simp [isZero]

theorem isZero_false_iff (v : Plate) : isZero v = false ↔ v ≠ 0 := by simp [isZero]

/-- R70: the bits an illegal constructor carries are those of the word it was decoded from. -/
theorem encode_decode_illegal (v : Plate) (h : (decode v).wellFormed = false) : encode (decode v) = v := by
  have hw := v.isLt
  have h1 := opcodeField_toNat v
  have hr := fieldRest_toNat v
  have h14 : (opcodeField v).toNat = 14 ∨ (opcodeField v).toNat = 15 := by
    rcases opcode_cases v with e|e|e|e|e|e|e|e|e|e|e|e|e|e|e|e <;>
      first
      | exact .inl e
      | exact .inr e
      | (rw [decode_of_opcode v _ e] at h; cases h)
  apply BitVec.eq_of_toNat_eq
  rcases h14 with e | e
  · rw [decode_of_opcode v _ e]
    show (encodeIllegal 14 (fieldRest v)).toNat = _
    rw [encodeIllegal_toNat, show (14 : BitVec 4).toNat = 14 from rfl]; omega
  · rw [decode_of_opcode v _ e]
    show (encodeIllegal 15 (fieldRest v)).toNat = _
    rw [encodeIllegal_toNat, show (15 : BitVec 4).toNat = 15 from rfl]; omega

/-- Everything an instruction that answers a next state can do: take a fault it can raise, stop, or go on with at most
one register, one store, one table entry, one byte of output, one byte of input and, for LOADPROG, `pc` changed. -/
theorem exec_cases (i : Instr) (s u : State) (h : exec i s = .next u) :
    (u.run = .faulted ∧ ∃ c w, u = raiseFault c w s ∧ (∀ v, fetch s = .ok v → decode v = i → w = some v) ∧ canRaise i c.kind = true ∧ infoFits c.kind s.pc c.info = true) ∨
    (i = .halt ∧ u = stopRunning s) ∨
    (u.run = s.run ∧ u.fault = s.fault ∧ i ≠ .halt ∧ (s.mem.wf = true → u.mem.wf = true) ∧ (u.mem.tableSize = s.mem.tableSize ∨ (s.mem.tableSize < s.env.maxTable ∧ u.mem.tableSize = s.mem.tableSize + 1)) ∧
      SameArguments s u ∧ (u.inPos = s.inPos ∨ (s.inPos < s.env.input.length ∧ u.inPos = s.inPos + 1)) ∧ (u.out = s.out ∨ ∃ b, u.out = s.out ++ [b]) ∧
      (u.pc = s.pc ∨ ∃ b c, i = .loadprog b c ∧ u.pc = readReg s c) ∧ (i.isLoadprog = false → u.pc = s.pc) ∧ (∀ b c, i = .loadprog b c → u.pc = readReg s c) ∧
      ∀ r, destination i ≠ some r → readReg u r = readReg s r) := by
  have sa : SameArguments s s := ⟨rfl,rfl,rfl,rfl⟩
  have cwf : ∀ v, fetch s = .ok v → decode v = i → currentWord s = some v := fun v hv _ => currentWord_of_fetch s v hv
  have wr : ∀ (a : RegIdx) (v : Plate), ∀ r, some a ≠ some r → readReg (writeReg a v s) r = readReg s r := by
    intro a v r hr; exact readReg_writeReg_other s a r v (fun e => hr (by rw [e]))
  cases i with
  | cmov a b c =>
    refine .inr (.inr ?_)
    rcases execCmov_next a b c s with h1 | h1
    · have := h1.symm.trans h; cases this
      exact ⟨rfl, rfl, by simp, id, .inl rfl, sa, .inl rfl, .inl rfl, .inl rfl, fun _ => rfl, by simp, fun _ _ => rfl⟩
    · have := h1.symm.trans h; cases this
      exact ⟨rfl, rfl, by simp, id, .inl rfl, sa, .inl rfl, .inl rfl, .inl rfl, fun _ => rfl, by simp, wr a _⟩
  | aidx a b c =>
    rcases execAidx_next a b c s u h with ⟨cz, h1, rfl⟩ | ⟨v, h1, rfl⟩
    · refine .inl ⟨rfl, cz, _, rfl, cwf, ?_⟩
      unfold memRead checkAccess at h1
      split at h1
      · rename_i e he; cases h1; split at he
        · cases he; exact ⟨rfl, rfl⟩
        · split at he
          · cases he; exact ⟨rfl, rfl⟩
          · cases he
      · cases h1
    · exact .inr (.inr ⟨rfl, rfl, by simp, id, .inl rfl, sa, .inl rfl, .inl rfl, .inl rfl, fun _ => rfl, by simp, wr a _⟩)
  | amend a b c =>
    rcases execAmend_next a b c s u h with ⟨cz, h1, rfl⟩ | ⟨m, h1, rfl⟩
    · refine .inl ⟨rfl, cz, _, rfl, cwf, ?_⟩
      unfold memWrite checkAccess at h1
      split at h1
      · rename_i e he; cases h1; split at he
        · cases he; exact ⟨rfl, rfl⟩
        · split at he
          · cases he; exact ⟨rfl, rfl⟩
          · cases he
      · cases h1
    · refine .inr (.inr ⟨rfl, rfl, by simp, fun hw => memWrite_wf _ _ _ _ _ hw h1, .inl ?_, sa, .inl rfl, .inl rfl, .inl rfl, fun _ => rfl, by simp, fun _ _ => rfl⟩)
      obtain ⟨_, _, rfl⟩ := memWrite_ok _ _ _ _ _ h1
      exact memory_setSeg_tableSize ..
  | add a b c => cases h; exact .inr (.inr ⟨rfl, rfl, by simp, id, .inl rfl, sa, .inl rfl, .inl rfl, .inl rfl, fun _ => rfl, by simp, wr a _⟩)
  | mul a b c => cases h; exact .inr (.inr ⟨rfl, rfl, by simp, id, .inl rfl, sa, .inl rfl, .inl rfl, .inl rfl, fun _ => rfl, by simp, wr a _⟩)
  | nand a b c => cases h; exact .inr (.inr ⟨rfl, rfl, by simp, id, .inl rfl, sa, .inl rfl, .inl rfl, .inl rfl, fun _ => rfl, by simp, wr a _⟩)
  | ortho t imm => cases h; exact .inr (.inr ⟨rfl, rfl, by simp, id, .inl rfl, sa, .inl rfl, .inl rfl, .inl rfl, fun _ => rfl, by simp, wr t _⟩)
  | div a b c =>
    rcases execDiv_next a b c s u h with rfl | ⟨q, rfl⟩
    · exact .inl ⟨rfl, _, _, rfl, cwf, rfl, rfl⟩
    · exact .inr (.inr ⟨rfl, rfl, by simp, id, .inl rfl, sa, .inl rfl, .inl rfl, .inl rfl, fun _ => rfl, by simp, wr a _⟩)
  | halt => cases h; exact .inr (.inl ⟨rfl, rfl⟩)
  | alloc b c =>
    obtain ⟨k, v, ha, rfl⟩ := execAlloc_next b c s u h
    have wr' : ∀ v : State, v.x = s.x → ∀ r, some b ≠ some r → readReg (writeReg b k v) r = readReg s r := by
      intro v hv r hr
      rw [readReg_writeReg_other v b r k (fun e => hr (by rw [e]))]
      exact readReg_congr _ _ hv r
    rcases segAlloc_ok _ _ s v ha with ⟨f, o, hp, hh, rfl⟩ | ⟨hp, hm, hh, rfl⟩
    · refine .inr (.inr ⟨rfl, rfl, by simp, fun hw => memory_reuse_wf _ _ _ hw (by rw [hp, hh]; exact poolMember_mem ..), .inl ?_, ⟨rfl,rfl,rfl,rfl⟩, .inl rfl, .inl rfl, .inl rfl, fun _ => rfl, by simp, wr' _ rfl⟩)
      exact memory_setSeg_tableSize ..
    · refine .inr (.inr ⟨rfl, rfl, by simp, fun hw => memory_grow_wf _ _ hw, .inr ⟨hm, ?_⟩, ⟨rfl,rfl,rfl,rfl⟩, .inl rfl, .inl rfl, .inl rfl, fun _ => rfl, by simp, wr' _ rfl⟩)
      simp [Memory.grow, Memory.tableSize]
  | aband c =>
    rcases execAband_next c s u h with ⟨cz, h1, rfl⟩ | ⟨m, h1, rfl⟩
    · refine .inl ⟨rfl, cz, _, rfl, cwf, ?_⟩
      unfold segAbandon at h1
      split at h1
      · cases h1; exact ⟨rfl, rfl⟩
      · split at h1
        · cases h1; exact ⟨rfl, rfl⟩
        · cases h1
    · refine .inr (.inr ⟨rfl, rfl, by simp, fun hw => segAbandon_wf _ _ _ hw h1, .inl ?_, sa, .inl rfl, .inl rfl, .inl rfl, fun _ => rfl, by simp, fun _ _ => rfl⟩)
      obtain ⟨_, _, rfl⟩ := segAbandon_ok _ _ _ h1
      exact memory_setSeg_tableSize ..
  | out c =>
    rcases execOut_next c s u h with ⟨_, rfl⟩ | ⟨_, rfl⟩
    · exact .inl ⟨rfl, _, _, rfl, cwf, rfl, rfl⟩
    · exact .inr (.inr ⟨rfl, rfl, by simp, id, .inl rfl, ⟨rfl,rfl,rfl,rfl⟩, .inl rfl, .inr ⟨_, rfl⟩, .inl rfl, fun _ => rfl, by simp, fun _ _ => rfl⟩)
  | inp c =>
    have wr' : ∀ (v : State) (k : Plate), v.x = s.x → ∀ r, some c ≠ some r → readReg (writeReg c k v) r = readReg s r := by
      intro v k hv r hr
      rw [readReg_writeReg_other v c r k (fun e => hr (by rw [e]))]
      exact readReg_congr _ _ hv r
    rcases execInp_next c s u h with ⟨_, rfl⟩ | ⟨_, hb, rfl⟩ | ⟨_, b, hb, rfl⟩
    · exact .inl ⟨rfl, _, _, rfl, cwf, rfl, rfl⟩
    · exact .inr (.inr ⟨rfl, rfl, by simp, id, .inl rfl, ⟨rfl,rfl,rfl,rfl⟩, .inl rfl, .inl rfl, .inl rfl, fun _ => rfl, by simp, wr' _ _ rfl⟩)
    · exact .inr (.inr ⟨rfl, rfl, by simp, id, .inl rfl, ⟨rfl,rfl,rfl,rfl⟩, .inr ⟨(List.getElem?_eq_some_iff.1 hb).1, rfl⟩, .inl rfl, .inl rfl, fun _ => rfl, by simp, wr' _ _ rfl⟩)
  | loadprog b c =>
    rcases execLoadprog_next b c s u h with ⟨_, rfl⟩ | ⟨_, cz, h1, rfl⟩ | ⟨_, m, h1, rfl⟩
    · refine .inr (.inr ⟨rfl, rfl, by simp, id, .inl rfl, sa, .inl rfl, .inl rfl, .inr ⟨_, _, rfl, rfl⟩, by simp [Instr.isLoadprog], ?_, fun _ _ => rfl⟩)
      intro b' c' e; cases e; rfl
    · refine .inl ⟨rfl, cz, _, rfl, cwf, ?_⟩
      unfold segLoadProgram at h1
      split at h1
      · cases h1; exact ⟨rfl, rfl⟩
      · cases h1
    · refine .inr (.inr ⟨rfl, rfl, by simp, fun hw => segLoadProgram_wf _ _ _ hw h1, .inl ?_, sa, .inl rfl, .inl rfl, .inr ⟨_, _, rfl, rfl⟩, by simp [Instr.isLoadprog], ?_, fun _ _ => rfl⟩)
      · obtain ⟨_, rfl⟩ := segLoadProgram_ok _ _ _ h1
        exact memory_setSeg_tableSize ..
      · intro b' c' e; cases e; rfl
  | illegal14 rest =>
    cases h
    refine .inl ⟨rfl, _, _, rfl, ?_, rfl, rfl⟩
    intro v _ hd; rw [← hd, encode_decode_illegal v (by rw [hd]; rfl)]
  | illegal15 rest =>
    cases h
    refine .inl ⟨rfl, _, _, rfl, ?_, rfl, rfl⟩
    intro v _ hd; rw [← hd, encode_decode_illegal v (by rw [hd]; rfl)]

/-- R80: the step of a fetched word. -/
theorem step_of_fetch (s : State) (w : Plate) (u : State) (hr : s.run = .running) (hf : fetch s = .ok w) (he : exec (decode w) s = .next u) : step s = .next (advance (decode w) u) := by
  rw [step_running s hr, cycle, hf]
  show execAndAdvance (decode w) s = _
  rw [execAndAdvance, he]

theorem advance_of_running (i : Instr) (u : State) (hr : u.run = .running) : advance i u = if i.isLoadprog then u else setPc (u.pc + 1) u := by
  rw [advance, hr]

theorem advance_of_stopped (i : Instr) (u : State) (hr : u.run ≠ .running) : advance i u = u := by
  unfold advance; cases h : u.run <;> simp_all

/-- R84: an instruction that leaves `run` and `pc` alone is followed by the increment. -/
theorem stepAdvances_of_exec (i : Instr) (s t : State) (h : exec i s = .next t) (hr : t.run = s.run) (hp : t.pc = s.pc)
    (hl : i.isLoadprog = false) : StepAdvances i s t := by
  intro w hrun hf hd
  subst hd
  rw [step_of_fetch s w t hrun hf h, advance_of_running _ t (hr.trans hrun), hl, if_neg (by decide), hp]; rfl

/-- The first step of a run. -/
theorem run_succ_next (M : Host.Core) (k : Nat) (s t : M.State) (h : M.run (k + 1) s = .next t) :
    ∃ u, M.step s = .next u ∧ M.run k u = .next t := by
  rw [Host.Core.run] at h
  cases hs : M.step s with
  | next u => rw [hs] at h; exact ⟨u, rfl, h⟩
  | fault r => rw [hs] at h; cases h
  | refused r => rw [hs] at h; cases h

theorem reaches_succ (k : Nat) (s t : State) (h : Reaches (k + 1) s t) : ∃ u, step s = .next u ∧ Reaches k u t :=
  run_succ_next Sys2Proof.core k s t h

/-- What every step keeps, every run keeps. -/
theorem reaches_induction (P : State → State → Prop) (hrefl : ∀ s, P s s) (hstep : ∀ s t u, step s = .next t → P t u → P s u) :
    ∀ k s t, Reaches k s t → P s t := by
  intro k
  induction k with
  | zero => intro s t h; cases h; exact hrefl s
  | succ k ih =>
    intro s t h
    obtain ⟨v, hs, hv⟩ := reaches_succ k s t h
    exact hstep s v t hs (ih v t hv)

end Sys2Proof.Machine
end

