-- ==== Sys2Proof/Tests/Slice0.lean ====
section
/-! SUPPORT. Tests on one step each, their expected results from spec/95_test_vectors.md (the vector is named in each
docstring) or from the rule cited; and for every obligation with hypotheses a witness that meets them. -/

namespace Sys2Proof.Tests

open Sys2Proof Sys2Proof.Machine

/-! ### Small states -/

/-- The eight registers. -/
def regs (a b c d e f g h : Plate) : Vector Plate 8 := #v[a, b, c, d, e, f, g, h]

/-- The reset machine with registers and an image. -/
def machine (x : Vector Plate 8) (image : List Plate) : State := { State.resetWith image Env.atReset with x := x }

/-- State Q of 95_test_vectors.md section 5: handle 1 holds three plates, handle 2 is abandoned. -/
def stateQ (x : Vector Plate 8) : State :=
  { machine x [] with
    mem :=
      { table := [Segment.ofPlates [0, 0, 0xDEADBEEF, 0], Segment.ofPlates [0, 0x63, 0], Segment.discarded]
        pool := [2] } }

/-- State Q after AR20, handle 1 abandoned too. -/
def stateQ2 (x : Vector Plate 8) : State :=
  { machine x [] with
    mem :=
      { table := [Segment.ofPlates [0, 0, 0xDEADBEEF, 0], Segment.discarded, Segment.discarded]
        pool := [1, 2] } }

/-- The reset machine with an input and an environment that may fail as the script says. -/
def ioMachine (x : Vector Plate 8) (input : List Byte) (mayFail : Bool) (errors : List Bool) : State :=
  { machine x [] with env := { Env.atReset with input := input, ioMayFail := mayFail, ioErrors := errors } }

/-- The next state, if there is one. -/
def done : Result → Option State
  | .next t => some t
  | .fault _ => none
  | .refused _ => none

/-- The registers after. -/
def xAfter (r : Result) : Option (Vector Plate 8) := (done r).map State.x

/-- The fault record after, the code of R131 in place of the kind. -/
def faultAfter (r : Result) : Option (Nat × Plate × Option Plate × FaultInfo) :=
  match (done r).bind State.fault with
  | none => none
  | some f => some (f.kind.code, f.pc, f.word, f.info)

/-- The plates of a segment after. -/
def segAfter (r : Result) (h : Plate) : Option (List Plate) := (done r).map (fun t => (t.mem.seg h).toPlates)

/-- The run state and `pc` after. -/
def controlAfter (r : Result) : Option (RunState × Plate) := (done r).map (fun t => (t.run, t.pc))

/-! ### Smoke: the checks refuse ill-formed terms -/

theorem test_wellFormed_refuses_opcode14 : Instr.wellFormed (.illegal14 0) = false := by decide

theorem test_wellFormed_refuses_opcode15 : Instr.wellFormed (.illegal15 0xFFFFFFF) = false := by decide

/-- LD4. -/
theorem test_wellFormedImageBytes_refuses_three : wellFormedImageBytes [0x70, 0, 0] = false := by decide

/-- R32: one plate more than a segment can have. -/
theorem test_wellFormedImage_refuses_too_long (image : List Plate) (h : image.length = maxSegmentLength + 1) :
    wellFormedImage image = false := by
  rw [wellFormedImage, h]; decide

/-! ### Decoding: words written out bit by bit from R62, R63, R73 -/

/-- EN1, R90: opcode 0000. -/
theorem test_decode_cmov : decode 0b0000_0000000000000000000_001_010_011#32 = .cmov 1 2 3 := by decide

/-- DE8: opcode 0001, unused bits set. -/
theorem test_decode_aidx : decode 0b0001_0010001101001010101_111_001_101#32 = .aidx 7 1 5 := by decide

/-- DE7: opcode 0010. -/
theorem test_decode_amend : decode 0b0010_0000000000000000000_110_001_010#32 = .amend 6 1 2 := by decide

/-- DE4: opcode 0011, all unused bits set. -/
theorem test_decode_add : decode 0b0011_1111111111111111111_001_010_011#32 = .add 1 2 3 := by decide

/-- EN6: opcode 0100. -/
theorem test_decode_mul : decode 0b0100_0000000000000000000_001_010_011#32 = .mul 1 2 3 := by decide

/-- EN7: opcode 0101. -/
theorem test_decode_div : decode 0b0101_0000000000000000000_001_010_011#32 = .div 1 2 3 := by decide

/-- EN8: opcode 0110. -/
theorem test_decode_nand : decode 0b0110_0000000000000000000_010_000_000#32 = .nand 2 0 0 := by decide

/-- DE12: opcode 0111, every other bit set. -/
theorem test_decode_halt : decode 0b0111_1111111111111111111_111_111_111#32 = .halt := by decide

/-- DE9: opcode 1000. -/
theorem test_decode_alloc : decode 0b1000_0000000000000000000_000_010_001#32 = .alloc 2 1 := by decide

/-- EN11: opcode 1001. -/
theorem test_decode_aband : decode 0b1001_0000000000000000000_000_000_010#32 = .aband 2 := by decide

/-- EN12: opcode 1010. -/
theorem test_decode_out : decode 0b1010_0000000000000000000_000_000_111#32 = .out 7 := by decide

/-- EN13: opcode 1011. -/
theorem test_decode_in : decode 0b1011_0000000000000000000_000_000_001#32 = .inp 1 := by decide

/-- DE10: opcode 1100. -/
theorem test_decode_loadprog : decode 0b1100_0000000000000000000_000_111_000#32 = .loadprog 7 0 := by decide

/-- DE19, DE17: opcode 1101; bits 8:0 belong to the immediate. -/
theorem test_decode_ortho :
    decode 0b1101_000_0000000000000000111000111#32 = .ortho 0 455 ∧
    decode 0b1101_111_1111111111111111111111111#32 = .ortho 7 33554431 := by decide

/-- DE20, DE21: opcode 1110. -/
theorem test_decode_illegal14 :
    decode 0b1110_0000000000000000000000000000#32 = .illegal14 0 ∧
    decode 0b1110_1111111111111111111111111111#32 = .illegal14 0xFFFFFFF := by decide

/-- DE22, DE23: opcode 1111. -/
theorem test_decode_illegal15 :
    decode 0b1111_0000000000000000000000000000#32 = .illegal15 0 ∧
    decode 0b1111_1111111111111111111111111111#32 = .illegal15 0xFFFFFFF := by decide

/-- EN1 to EN17. -/
theorem test_encode_words :
    encode (.cmov 1 2 3) = 0x00000053 ∧ encode (.aidx 4 0 3) = 0x10000103 ∧ encode (.amend 1 3 4) = 0x2000005C ∧
    encode (.add 1 2 3) = 0x30000053 ∧ encode (.mul 1 2 3) = 0x40000053 ∧ encode (.div 1 2 3) = 0x50000053 ∧
    encode (.nand 2 0 0) = 0x60000080 ∧ encode .halt = 0x70000000 ∧ encode (.alloc 2 1) = 0x80000011 ∧
    encode (.aband 2) = 0x90000002 ∧ encode (.out 7) = 0xA0000007 ∧ encode (.inp 1) = 0xB0000001 ∧
    encode (.loadprog 0 4) = 0xC0000004 ∧ encode (.ortho 7 42) = 0xDE00002A ∧
    encode (.ortho 7 0x1FFFFFF) = 0xDFFFFFFF := by decide

/-- LD5: bytes are big-endian. -/
theorem test_decodeBytes_big_endian :
    decodeBytes [0x12, 0x34, 0xAB, 0xCD, 0x70] = .ok (.aidx 7 1 5, [0x70]) := by decide

theorem test_decodeBytes_rejects_short : decodeBytes [0x12, 0x34, 0xAB] = .error .notOnePlate := by decide

/-- R39, R52: the bytes of HALT. -/
theorem test_encodeBytes_halt : encodeBytes .halt = [0x70, 0, 0, 0] := by decide

theorem test_decodeTableWord : decodeTableWord 32 0xDE00002A = some (.ortho 7 42) := by decide

/-! ### The register moves -/

/-- MV3. -/
theorem test_cmov_any_bit_counts :
    xAfter (exec (.cmov 1 2 3) (machine (regs 0 0x11111111 0x22222222 0x80000000 0 0 0 0) [])) =
      some (regs 0 0x22222222 0x22222222 0x80000000 0 0 0 0) := by decide

/-- MV2, and MV8 with the condition register as destination. -/
theorem test_cmov_zero_and_alias :
    xAfter (exec (.cmov 1 2 3) (machine (regs 0 0x11111111 0x22222222 0 0 0 0 0) [])) =
      some (regs 0 0x11111111 0x22222222 0 0 0 0 0) ∧
    xAfter (exec (.cmov 1 3 1) (machine (regs 0 9 0 4 0 0 0 0) [])) = some (regs 0 4 0 4 0 0 0 0) := by decide

/-- MV10, MV11. -/
theorem test_ortho_zero_extends :
    xAfter (exec (.ortho 1 5) (machine (regs 0 0xFFFFFFFF 0 0 0 0 0 0) [])) = some (regs 0 5 0 0 0 0 0 0) ∧
    xAfter (exec (.ortho 7 0x1FFFFFF) (machine (regs 0 0 0 0 0 0 0 0) [])) =
      some (regs 0 0 0 0 0 0 0 0x01FFFFFF) := by decide

/-! ### Arithmetic -/

/-- AD3, AD6, AD7. -/
theorem test_add_wraps :
    aluAdd 0xFFFFFFFF 1 = 0 ∧ aluAdd 0x7FFFFFFF 1 = 0x80000000 ∧ aluAdd 0x12345678 0xEDCBA988 = 0 := by decide

/-- AD9. -/
theorem test_add_alias :
    xAfter (exec (.add 1 1 1) (machine (regs 0 0x80000001 0 0 0 0 0 0) [])) = some (regs 0 2 0 0 0 0 0 0) := by decide

/-- ML4, ML5, ML8. -/
theorem test_mul_low_half :
    aluMul 0x00010000 0x0000FFFF = 0xFFFF0000 ∧ aluMul 0xFFFFFFFF 0xFFFFFFFF = 1 ∧
    aluMul 0x12345678 0x9ABCDEF0 = 0x242D2080 := by decide

/-- ML11. -/
theorem test_mul_square :
    xAfter (exec (.mul 1 1 1) (machine (regs 0 0x00010001 0 0 0 0 0 0) [])) =
      some (regs 0 0x00020001 0 0 0 0 0 0) := by decide

/-- DV7, DV8, DV15. -/
theorem test_div_unsigned :
    aluDiv 0xFFFFFFFF 2 = .ok 0x7FFFFFFF ∧ aluDiv 0x80000000 0xFFFFFFFF = .ok 0 ∧
    xAfter (exec (.div 3 2 3) (machine (regs 0 0 0x64 7 0 0 0 0) [])) = some (regs 0 0 0x64 0xE 0 0 0 0) := by decide

/-- DV18: code 5, the word recorded, the destination kept. -/
theorem test_div_by_zero :
    faultAfter (step (machine (regs 0 0xAAAAAAAA 5 0 0 0 0 0) [0x50000053])) =
      some (5, 0, some 0x50000053, .absent) ∧
    xAfter (step (machine (regs 0 0xAAAAAAAA 5 0 0 0 0 0) [0x50000053])) =
      some (regs 0 0xAAAAAAAA 5 0 0 0 0 0) := by decide

/-- ND4, ND8. -/
theorem test_nand :
    aluNand 0xF0F0F0F0 0xFF00FF00 = 0x0FFF0FFF ∧
    xAfter (exec (.nand 1 1 1) (machine (regs 0 0x0000FFFF 0 0 0 0 0 0) [])) =
      some (regs 0 0xFFFF0000 0 0 0 0 0 0) := by decide

/-! ### Arrays and segments -/

/-- AR2, AR10. -/
theorem test_aidx_reads :
    xAfter (exec (.aidx 5 1 3) (stateQ (regs 0 1 0 2 0 7 0 0))) = some (regs 0 1 0 2 0 0 0 0) ∧
    xAfter (exec (.aidx 1 1 1) (stateQ (regs 0 1 0 0 0 0 0 0))) = some (regs 0 0x63 0 0 0 0 0 0) := by decide

/-- AR3, AR7, AR9: the offset at the length, the handle at the table's size, the handle checked first. The word is
cell 0 of Q's image. -/
theorem test_aidx_faults :
    faultAfter (exec (.aidx 5 1 3) (stateQ (regs 0 1 0 3 0 0 0 0))) = some (4, 0, some 0, .cell 1 3) ∧
    faultAfter (exec (.aidx 5 1 3) (stateQ (regs 0 3 0 0 0 0 0 0))) = some (3, 0, some 0, .handle 3) ∧
    faultAfter (exec (.aidx 5 1 3) (stateQ (regs 0 2 0 99 0 0 0 0))) = some (3, 0, some 0, .handle 2) := by decide

/-- AR11, AR14, AR15. -/
theorem test_amend_stores :
    segAfter (exec (.amend 1 3 4) (stateQ (regs 0 1 0 0 0x12345678 0 0 0))) 1 = some [0x12345678, 0x63, 0] ∧
    segAfter (exec (.amend 1 3 4) (stateQ (regs 0 0 0 2 0x70000000 0 0 0))) 0 = some [0, 0, 0x70000000, 0] ∧
    segAfter (exec (.amend 1 1 1) (stateQ (regs 0 1 0 0 0 0 0 0))) 1 = some [0, 1, 0] := by decide

/-- AR12, AR13. -/
theorem test_amend_faults :
    faultAfter (exec (.amend 1 3 4) (stateQ (regs 0 1 0 3 7 0 0 0))) = some (4, 0, some 0, .cell 1 3) ∧
    faultAfter (exec (.amend 1 3 4) (stateQ (regs 0 2 0 0 7 0 0 0))) = some (3, 0, some 0, .handle 2) := by decide

/-- AR16: the pool is not empty, so its member is reused and the table does not grow. -/
theorem test_alloc_reuses :
    xAfter (exec (.alloc 2 1) (stateQ (regs 0 4 0 0 0 0 0 0))) = some (regs 0 4 2 0 0 0 0 0) ∧
    segAfter (exec (.alloc 2 1) (stateQ (regs 0 4 0 0 0 0 0 0))) 2 = some [0, 0, 0, 0] ∧
    (done (exec (.alloc 2 1) (stateQ (regs 0 4 0 0 0 0 0 0)))).map (fun t => (t.mem.tableSize, t.mem.pool)) =
      some (3, []) := by decide

/-- Q3: the length is read before the handle is written; the first new handle is 1 (D9). -/
theorem test_alloc_grows :
    xAfter (exec (.alloc 2 2) (machine (regs 0 0 3 0 0 0 0 0) [])) = some (regs 0 0 1 0 0 0 0 0) ∧
    segAfter (exec (.alloc 2 2) (machine (regs 0 0 3 0 0 0 0 0) [])) 1 = some [0, 0, 0] := by decide

/-- AR20. -/
theorem test_aband_releases :
    (done (exec (.aband 1) (stateQ (regs 0 1 0 0 0 0 0 0)))).map
      (fun t => (t.mem.allocated 1, t.mem.pool, t.mem.tableSize, readReg t 1)) = some (false, [1, 2], 3, 1) := by decide

/-- AR21, AR22, AR23. -/
theorem test_aband_faults :
    faultAfter (exec (.aband 1) (stateQ (regs 0 0 0 0 0 0 0 0))) = some (3, 0, some 0, .handle 0) ∧
    faultAfter (exec (.aband 1) (stateQ (regs 0 2 0 0 0 0 0 0))) = some (3, 0, some 0, .handle 2) ∧
    faultAfter (exec (.aband 1) (stateQ (regs 0 7 0 0 0 0 0 0))) = some (3, 0, some 0, .handle 7) := by decide

/-! ### Byte output and input -/

/-- OU3. -/
theorem test_out_truncates :
    (done (exec (.out 1) (machine (regs 0 0x1FF 0 0 0 0 0 0) []))).map State.out = some [0xFF] := by decide

/-- OU6. -/
theorem test_out_error :
    faultAfter (step { ioMachine (regs 0 0x48 0 0 0 0 0 0) [] true [true] with
      mem := (State.resetWith [0xA0000001] Env.atReset).mem }) = some (6, 0, some 0xA0000001, .absent) := by decide

/-- IN3, IN4: zero-extended. -/
theorem test_in_zero_extends :
    xAfter (exec (.inp 1) (ioMachine (regs 0 5 0 0 0 0 0 0) [0xFF] false [])) = some (regs 0 0xFF 0 0 0 0 0 0) ∧
    (done (exec (.inp 1) (ioMachine (regs 0 5 0 0 0 0 0 0) [0x80] false []))).map State.inPos = some 1 := by decide

/-- IN5, IN7. -/
theorem test_in_end_and_error :
    xAfter (exec (.inp 1) (ioMachine (regs 0 5 0 0 0 0 0 0) [] false [])) =
      some (regs 0 0xFFFFFFFF 0 0 0 0 0 0) ∧
    (done (exec (.inp 1) (ioMachine (regs 0 5 0 0 0 0 0 0) [0x41] true [true]))).map
      (fun t => (faultCode t.fault, readReg t 1, t.inPos)) = some (6, 5, 0) := by decide

/-! ### Control and the cycle -/

/-- CT2. -/
theorem test_halt_holds_pc :
    controlAfter (step (machine (regs 0 0 0 0 0 0 0 0) [0x7FFFFFFF])) = some (.halted, 0) := by decide

/-- CT4: a jump without increment; a step of an ordinary instruction increments. -/
theorem test_loadprog_jumps :
    controlAfter (step (machine (regs 0 0 0 0 3 0 0 0) [0xC0000004])) = some (.running, 3) ∧
    controlAfter (step (machine (regs 0 0 0 0 0 0 0 0) [0xD2000005])) = some (.running, 1) := by decide

/-- CT6 on state Q, CT7. -/
theorem test_loadprog_copies_or_faults :
    segAfter (exec (.loadprog 2 0) (stateQ (regs 0 0 1 0 0 0 0 0))) 0 = some [0, 0x63, 0] ∧
    faultAfter (exec (.loadprog 1 0) (stateQ (regs 0 3 0 0 0 0 0 0))) = some (3, 0, some 0, .handle 3) := by decide

/-- CT12. -/
theorem test_illegal14_faults :
    faultAfter (step (machine (regs 0 9 0 0 0 0 0 0) [0xE00001FF])) = some (1, 0, some 0xE00001FF, .absent) := by decide

/-- CT12. -/
theorem test_illegal15_faults :
    faultAfter (step (machine (regs 0 9 0 0 0 0 0 0) [0xFFFFFFFF])) = some (1, 0, some 0xFFFFFFFF, .absent) := by decide

/-- CT11: the empty image. -/
theorem test_fetch_beyond_program : faultAfter (step State.reset) = some (2, 0, none, .pc 0) := by decide

/-- The host's placing of a word: EN15 is the first instruction after reset. -/
theorem test_withFetchWord_runs :
    xAfter (step (State.reset.withFetchWord 32 0xDE00002A)) = some (regs 0 0 0 0 0 0 0 42) := by decide

/-- LD1, LD4, LD5. -/
theorem test_loader :
    loadImage [0x70, 0, 0, 0] = .ok [0x70000000] ∧ loadImage [0x70, 0, 0] = .error .trailingPartialWord ∧
    loadImage [0x12, 0x34, 0xAB, 0xCD] = .ok [0x1234ABCD] ∧ loadImage [] = .ok [] := by decide

/-- R131: the codes. -/
theorem test_fault_codes :
    ([.decodeError, .oobPc, .oobSegment, .oobCell, .divideByZero, .ioError, .oobRegister].map FaultKind.code) =
      [1, 2, 3, 4, 5, 6, 7] ∧ faultCode none = 0 := by decide

/-! ### Witnesses: for each obligation with hypotheses, a state and operands that meet them, clause by clause -/

/-- EncodeOfDecodeIffCanonical: DE3 is canonical, DE4 is not. -/
theorem witness_EncodeOfDecodeIffCanonical : isCanonical 0x30000053 = true ∧ isCanonical 0x3FFFFE53 = false := by decide

/-- FormatSDependsOnOpcodeAndLowNineBits, at opcode 3 and at the boundary opcode 12. -/
theorem witness_FormatSDependsOnOpcodeAndLowNineBits :
    ((opcodeField 0x30000053).toNat ≤ 12 ∧ opcodeField 0x3FFFFE53 = opcodeField 0x30000053 ∧
      (0x3FFFFE53 : Plate).toNat % 512 = (0x30000053 : Plate).toNat % 512) ∧
    ((opcodeField 0xC0000038).toNat ≤ 12 ∧ opcodeField 0xCFFFFE38 = opcodeField 0xC0000038 ∧
      (0xCFFFFE38 : Plate).toNat % 512 = (0xC0000038 : Plate).toNat % 512) := by decide

/-- UnusedOperandFieldsIgnored: one pair of different words for each of the six opcodes. -/
theorem witness_UnusedOperandFieldsIgnored :
    (opcodeField 0x7FFFFFFF = opcodeField 0x70000000 ∧ (opcodeField 0x70000000).toNat = 7) ∧
    (opcodeField 0x800001D1 = opcodeField 0x80000011 ∧ (opcodeField 0x80000011).toNat = 8 ∧
      fieldB 0x800001D1 = fieldB 0x80000011 ∧ fieldC 0x800001D1 = fieldC 0x80000011) ∧
    (opcodeField 0xC00001F8 = opcodeField 0xC0000038 ∧ (opcodeField 0xC0000038).toNat = 12 ∧
      fieldB 0xC00001F8 = fieldB 0xC0000038 ∧ fieldC 0xC00001F8 = fieldC 0xC0000038) ∧
    (opcodeField 0x900001FA = opcodeField 0x90000002 ∧ (opcodeField 0x90000002).toNat = 9 ∧
      fieldC 0x900001FA = fieldC 0x90000002) ∧
    (opcodeField 0xA00001FF = opcodeField 0xA0000007 ∧ (opcodeField 0xA0000007).toNat = 10 ∧
      fieldC 0xA00001FF = fieldC 0xA0000007) ∧
    (opcodeField 0xB00001F9 = opcodeField 0xB0000001 ∧ (opcodeField 0xB0000001).toNat = 11 ∧
      fieldC 0xB00001F9 = fieldC 0xB0000001) := by decide

/-- The clause "opcode n decodes to" of every instruction statement: a word for each of the fourteen opcodes, with
unused bits set. -/
theorem witness_decode_clauses :
    ([0x0FFFFE53, 0x1234ABCD, 0x2FFFFF8A, 0x3FFFFE53, 0x4FFFFE53, 0x5FFFFE53, 0x6FFFFE80, 0x7FFFFFFF, 0x8FFFFFD1,
      0x9FFFFFFA, 0xAFFFFFFF, 0xBFFFFFF9, 0xCFFFFFFF, 0xDFFFFFFF].map (fun w => (opcodeField w).toNat)) =
      [0, 1, 2, 3, 4, 5, 6, 7, 8, 9, 10, 11, 12, 13] := by decide

/-- CmovMovesWhenConditionNonzero: both branches. -/
theorem witness_CmovMovesWhenConditionNonzero :
    (readReg (machine (regs 0 1 2 0x80000000 0 0 0 0) []) 3).toNat ≠ 0 ∧
    ¬(readReg (machine (regs 0 1 2 0 0 0 0 0) []) 3).toNat ≠ 0 := by decide

/-- ArithmeticUnitFunctions and ArithmeticUnitLaws: a divisor that is not 0, and a quotient. -/
theorem witness_ArithmeticUnit : (7 : Plate) ≠ 0 ∧ aluDiv 0x64 7 = .ok 0xE := by decide

/-- DivFloorsOrFaultsOnZero: both clauses. -/
theorem witness_DivFloorsOrFaultsOnZero :
    readReg (machine (regs 0 0 0x64 1 0 0 0 0) []) 3 ≠ 0 ∧ readReg (machine (regs 0 0 5 0 0 0 0 0) []) 3 = 0 := by decide

/-- AidxLoadsCellOrFaults: the last cell (AR2); the handle abandoned and the handle at `table_size` (AR6, AR7); the
offset at the length (AR3). -/
theorem witness_AidxLoadsCellOrFaults :
    ((stateQ (regs 0 1 0 2 0 0 0 0)).mem.allocated 1 = true ∧
      (readReg (stateQ (regs 0 1 0 2 0 0 0 0)) 3).toNat < (stateQ (regs 0 1 0 2 0 0 0 0)).mem.len 1) ∧
    (stateQ (regs 0 2 0 0 0 0 0 0)).mem.allocated (readReg (stateQ (regs 0 2 0 0 0 0 0 0)) 1) = false ∧
    (stateQ (regs 0 3 0 0 0 0 0 0)).mem.allocated (readReg (stateQ (regs 0 3 0 0 0 0 0 0)) 1) = false ∧
    ((stateQ (regs 0 1 0 3 0 0 0 0)).mem.allocated 1 = true ∧
      (stateQ (regs 0 1 0 3 0 0 0 0)).mem.len 1 ≤ (readReg (stateQ (regs 0 1 0 3 0 0 0 0)) 3).toNat) := by decide

/-- AmendStoresOneCellOrFaults: the same clauses as for AIDX, with the canonical form of the memory. -/
theorem witness_AmendStoresOneCellOrFaults :
    (stateQ (regs 0 1 0 2 7 0 0 0)).mem.wf = true ∧
    ((stateQ (regs 0 1 0 2 7 0 0 0)).mem.allocated (readReg (stateQ (regs 0 1 0 2 7 0 0 0)) 1) = true ∧
      (readReg (stateQ (regs 0 1 0 2 7 0 0 0)) 3).toNat < (stateQ (regs 0 1 0 2 7 0 0 0)).mem.len 1) ∧
    (stateQ (regs 0 3 0 0 7 0 0 0)).mem.allocated (readReg (stateQ (regs 0 3 0 0 7 0 0 0)) 1) = false ∧
    (stateQ (regs 0 1 0 3 7 0 0 0)).mem.len 1 ≤ (readReg (stateQ (regs 0 1 0 3 7 0 0 0)) 3).toNat := by decide

/-- The invariant of Safety.lean at state Q: the witness of `StateInv s` with a pool. -/
theorem witness_StateInv_stateQ : StateInv (stateQ (regs 0 4 0 0 0 0 0 0)) :=
  ⟨by decide, by decide, by decide, by decide, by decide, fun _ h => nomatch h⟩

/-- The invariant at reset machines: the witness of `StateInv s` for the steps of witness_steps. -/
theorem witness_StateInv_machine :
    StateInv (machine (regs 0 4 0 0 0 0 0 0) [0]) ∧ StateInv (machine (regs 0 0 0 0 3 0 0 0) [0x70000000]) ∧
    StateInv (machine (regs 0 0 0 0 3 0 0 0) [0xE0000000]) ∧ StateInv (machine (regs 0 0 0 0 3 0 0 0) [0xC0000004]) ∧
    StateInv (machine (regs 0 0 0 0 3 0 0 0) [0x30000053]) :=
  ⟨⟨by decide, by decide, by decide, by decide, by decide, fun _ h => nomatch h⟩,
    ⟨by decide, by decide, by decide, by decide, by decide, fun _ h => nomatch h⟩,
    ⟨by decide, by decide, by decide, by decide, by decide, fun _ h => nomatch h⟩,
    ⟨by decide, by decide, by decide, by decide, by decide, fun _ h => nomatch h⟩,
    ⟨by decide, by decide, by decide, by decide, by decide, fun _ h => nomatch h⟩⟩

/-- AllocCreatesZeroedSegment: the pool with members, and the pool empty with room in the table; no host failure. -/
theorem witness_AllocCreatesZeroedSegment :
    ((stateQ (regs 0 4 0 0 0 0 0 0)).env.allocFailures.headD false = false ∧
      (stateQ (regs 0 4 0 0 0 0 0 0)).mem.pool ≠ []) ∧
    ((machine (regs 0 4 0 0 0 0 0 0) [0]).mem.pool = [] ∧
      (machine (regs 0 4 0 0 0 0 0 0) [0]).mem.tableSize < (machine (regs 0 4 0 0 0 0 0 0) [0]).env.maxTable) := by decide

/-- AllocRefusedOnExhaustion: the host out of memory, and the table exactly full. -/
theorem witness_AllocRefusedOnExhaustion :
    ({ Env.atReset with allocFailures := [true] } : Env).allocFailures.headD false = true ∧
    (Env.atReset.allocFailures.headD false = false ∧ State.reset.mem.pool = [] ∧
      ({ Env.atReset with maxTable := 1 } : Env).maxTable ≤ State.reset.mem.tableSize) := by decide

/-- AbandReleasesHandleOrFaults: the last handle below `table_size`; handle 0, `table_size` itself and a pool member. -/
theorem witness_AbandReleasesHandleOrFaults :
    (readReg (stateQ (regs 0 1 0 0 0 0 0 0)) 1 ≠ 0 ∧ (readReg (stateQ (regs 0 1 0 0 0 0 0 0)) 1).toNat < 3 ∧
      (stateQ (regs 0 1 0 0 0 0 0 0)).mem.tableSize = 3 ∧
      readReg (stateQ (regs 0 1 0 0 0 0 0 0)) 1 ∉ (stateQ (regs 0 1 0 0 0 0 0 0)).mem.pool) ∧
    readReg (stateQ (regs 0 0 0 0 0 0 0 0)) 1 = 0 ∧
    (stateQ (regs 0 3 0 0 0 0 0 0)).mem.tableSize ≤ (readReg (stateQ (regs 0 3 0 0 0 0 0 0)) 1).toNat ∧
    readReg (stateQ (regs 0 2 0 0 0 0 0 0)) 1 ∈ (stateQ (regs 0 2 0 0 0 0 0 0)).mem.pool := by decide

/-- AbandonedHandleFaultsUntilReused: an abandonment that is answered; a handle that stays in the pool over a step; a
handle that ALLOC returns. -/
theorem witness_AbandonedHandleFaultsUntilReused :
    segAbandon (stateQ (regs 0 1 0 0 0 0 0 0)).mem 1 = .ok (stateQ2 (regs 0 1 0 0 0 0 0 0)).mem ∧
    (1 : Plate) ∈ (stateQ2 (regs 0 4 0 0 0 0 0 0)).mem.pool ∧
    (done (exec (.add 3 1 1) (stateQ2 (regs 0 4 0 0 0 0 0 0)))).map (fun t => t.mem.pool.contains 1) = some true ∧
    (stateQ2 (regs 0 4 0 0 0 0 0 0)).mem.wf = true ∧
    (done (exec (.alloc 2 1) (stateQ2 (regs 0 4 0 0 0 0 0 0)))).map (fun t => readReg t 2) = some 1 := by decide

/-- LifoReusesHandleAbandonedLast: AR20 on state Q. -/
theorem witness_LifoReusesHandleAbandonedLast :
    (stateQ (regs 0 1 0 0 0 0 0 0)).mem.wf = true ∧
    exec (.aband 1) (stateQ (regs 0 1 0 0 0 0 0 0)) = .next (stateQ2 (regs 0 1 0 0 0 0 0 0)) ∧
    (stateQ2 (regs 0 1 0 0 0 0 0 0)).mem ≠ (stateQ (regs 0 1 0 0 0 0 0 0)).mem ∧
    (stateQ (regs 0 1 0 0 0 0 0 0)).env.poolPick = .lifo ∧
    (stateQ (regs 0 1 0 0 0 0 0 0)).env.allocFailures.headD false = false :=
  ⟨by decide, rfl, by decide, rfl, rfl⟩

/-- HandleCheckBeforeOffsetCheck: each clause in the memory of state Q, at the boundaries. -/
theorem witness_HandleCheckBeforeOffsetCheck :
    let m := (stateQ (regs 0 0 0 0 0 0 0 0)).mem
    ¬((3 : Plate).toNat < m.tableSize ∧ (3 : Plate) ∉ m.pool) ∧ ¬((2 : Plate).toNat < m.tableSize ∧ (2 : Plate) ∉ m.pool) ∧
    ((1 : Plate).toNat < m.tableSize ∧ (1 : Plate) ∉ m.pool ∧ m.len 1 ≤ (3 : Plate).toNat) ∧
    (2 : Plate).toNat < m.len 1 := by decide

/-- MemWriteChangesExactlyOneCell: a handle that is not allocated, the offset at the length, and the last cell of
segment 1 of state Q. -/
theorem witness_MemWriteChangesExactlyOneCell :
    let m := (stateQ (regs 0 0 0 0 0 0 0 0)).mem
    m.wf = true ∧ m.allocated 3 = false ∧ (m.allocated 1 = true ∧ m.len 1 ≤ (3 : Plate).toNat) ∧
    (2 : Plate).toNat < m.len 1 := by decide

/-- LoadProgramCopiesWithoutAliasing: a handle that is not allocated, one that is, and a store to each copy. -/
theorem witness_LoadProgramCopiesWithoutAliasing :
    (stateQ (regs 0 0 0 0 0 0 0 0)).mem.wf = true ∧
    (stateQ (regs 0 0 0 0 0 0 0 0)).mem.allocated 3 = false ∧ (stateQ (regs 0 0 0 0 0 0 0 0)).mem.allocated 1 = true ∧
    ∃ m1, segLoadProgram (stateQ (regs 0 0 0 0 0 0 0 0)).mem 1 = .ok m1 ∧ (∃ m2, memWrite m1 1 0 7 = .ok m2) ∧
      ∃ m2, memWrite m1 0 0 7 = .ok m2 :=
  ⟨by decide, by decide, by decide, _, rfl, ⟨_, rfl⟩, _, rfl⟩

/-- NextFetchSeesStoresToProgram: AMEND x0, x4, x1 at offset 0 stores to offset 1; LOADPROG x2, x0 of state Q. -/
theorem witness_NextFetchSeesStoresToProgram :
    let s := machine (regs 0 0x70000000 0 0 1 0 0 0) [0x20000021, 0xF0000000]
    let q := { stateQ (regs 2 0 1 0 0 0 0 0) with
      mem := { (stateQ (regs 0 0 0 0 0 0 0 0)).mem with
        table := [Segment.ofPlates [0xC0000010], Segment.ofPlates [0, 0x63, 0], Segment.discarded] } }
    (s.mem.wf = true ∧ s.run = .running ∧ fetch s = .ok 0x20000021 ∧ decode 0x20000021 = .amend 0 4 1 ∧
      readReg s 0 = 0 ∧ readReg s 4 = s.pc + 1 ∧ (readReg s 4).toNat < s.mem.len 0) ∧
    (q.mem.wf = true ∧ q.run = .running ∧ fetch q = .ok 0xC0000010 ∧ decode 0xC0000010 = .loadprog 2 0 ∧
      readReg q 2 ≠ 0 ∧ q.mem.allocated (readReg q 2) = true ∧ (readReg q 0).toNat < q.mem.len (readReg q 2)) := by
  decide

/-- OutAppendsLowByteOrFaults and InReadsByteOrEndOfInputOrFaults: a sink or source that cannot fail, one that may but
does not, one that fails; a byte to come, and the end of INPUT. -/
theorem witness_OutIn :
    (ioMachine (regs 0 0 0 0 0 0 0 0) [] false [true]).env.ioMayFail = false ∧
    ioFails (ioMachine (regs 0 0 0 0 0 0 0 0) [] true [false]) = false ∧
    ioFails (ioMachine (regs 0 0 0 0 0 0 0 0) [] true [true]) = true ∧
    (ioFails (ioMachine (regs 0 0 0 0 0 0 0 0) [0xFF] false []) = false ∧
      (ioMachine (regs 0 0 0 0 0 0 0 0) [0xFF] false []).env.input[0]? = some 0xFF) ∧
    (ioMachine (regs 0 0 0 0 0 0 0 0) [] false []).env.input.length ≤
      (ioMachine (regs 0 0 0 0 0 0 0 0) [] false []).inPos := by decide

/-- EndOfInputIsSticky and RunsOnlyExtendStreamsAndTable: IN5 and then IN6, one step of IN x1 and an IN after it. -/
theorem witness_EndOfInputIsSticky :
    ∃ u, Reaches 1 (machine (regs 0 5 0 0 0 0 0 0) [0xB0000001, 0xB0000001]) u ∧ ioFails u = false ∧
      (machine (regs 0 5 0 0 0 0 0 0) [0xB0000001, 0xB0000001]).env.input.length ≤
        (machine (regs 0 5 0 0 0 0 0 0) [0xB0000001, 0xB0000001]).inPos :=
  ⟨_, rfl, rfl, by decide⟩

/-- HaltStopsAndHoldsPc. -/
theorem witness_HaltStopsAndHoldsPc :
    (machine (regs 0 0 0 0 0 0 0 0) [0x7FFFFFFF]).run = .running ∧
    fetch (machine (regs 0 0 0 0 0 0 0 0) [0x7FFFFFFF]) = .ok 0x7FFFFFFF ∧ (opcodeField 0x7FFFFFFF).toNat = 7 := by
  decide

/-- LoadprogJumpsAndReplacesProgram: a plain jump, a segment that is allocated, one that is not, a step, and a step to a
target beyond the program (CT8); the stores after the copy are those of witness_LoadProgramCopiesWithoutAliasing. -/
theorem witness_LoadprogJumpsAndReplacesProgram :
    (stateQ (regs 0 1 3 0 0 0 0 0)).mem.wf = true ∧ readReg (stateQ (regs 0 1 3 0 0 0 0 0)) 0 = 0 ∧
    (readReg (stateQ (regs 0 1 3 0 0 0 0 0)) 1 ≠ 0 ∧
      (stateQ (regs 0 1 3 0 0 0 0 0)).mem.allocated (readReg (stateQ (regs 0 1 3 0 0 0 0 0)) 1) = true) ∧
    (readReg (stateQ (regs 0 1 3 0 0 0 0 0)) 2 ≠ 0 ∧
      (stateQ (regs 0 1 3 0 0 0 0 0)).mem.allocated (readReg (stateQ (regs 0 1 3 0 0 0 0 0)) 2) = false) ∧
    fetch (machine (regs 0 0 0 0 3 0 0 0) [0xC0000004]) = .ok 0xC0000004 ∧ decode 0xC0000004 = .loadprog 0 4 ∧
    controlAfter (step (machine (regs 0 0 0 0 3 0 0 0) [0xC0000004])) = some (.running, 3) ∧
    (done (step (machine (regs 0 0x64 0 0 0 0 0 0) [0xC0000001]))).map (fun u => (u.run, u.pc, u.mem.len 0)) =
      some (.running, 0x64, 1) := by decide

/-- StepAdvances, in the statement of each of the twelve instructions after which `pc` is incremented: its word in the
one cell of segment 0 of state Q, with registers on which it completes. -/
theorem witness_StepAdvances :
    ([0x00000053, 0x10000080, 0x20000082, 0x30000053, 0x40000053, 0x50000053, 0x60000080, 0x80000011, 0x90000002,
      0xA0000007, 0xB0000001, 0xDE00002A].map (fun w =>
        let s := { stateQ (regs 0 1 1 1 0 0 0 0) with
          mem := { (stateQ (regs 0 0 0 0 0 0 0 0)).mem with
            table := [Segment.ofPlates [w], Segment.ofPlates [0, 0x63, 0], Segment.discarded] } }
        (s.run, (fetch s).toOption == some w, controlAfter (step s)))) =
      List.replicate 12 (RunState.running, true, some (RunState.running, 1)) := by decide

/-- StepRunsDecodedInstruction: a step that goes on, and one whose ALLOC is refused. -/
theorem witness_StepRunsDecodedInstruction :
    (fetch (machine (regs 0 0 0 0 0 0 0 0) [0xDE00002A]) = .ok 0xDE00002A ∧
      ∃ u, exec (decode 0xDE00002A) (machine (regs 0 0 0 0 0 0 0 0) [0xDE00002A]) = .next u) ∧
    (fetch { machine (regs 0 0 0 0 0 0 0 0) [0x80000011] with env := { Env.atReset with maxTable := 1 } } =
        .ok 0x80000011 ∧
      exec (decode 0x80000011)
        { machine (regs 0 0 0 0 0 0 0 0) [0x80000011] with env := { Env.atReset with maxTable := 1 } } =
        .refused .segmentTableFull) :=
  ⟨⟨rfl, _, rfl⟩, rfl, rfl⟩

/-- FetchBeyondProgramFaults: `pc` one below the length, and at the length (CT10). -/
theorem witness_FetchBeyondProgramFaults :
    (machine (regs 0 0 0 0 0 0 0 0) [0x70000000]).run = .running ∧
    (machine (regs 0 0 0 0 0 0 0 0) [0x70000000]).pc.toNat < (machine (regs 0 0 0 0 0 0 0 0) [0x70000000]).mem.len 0 ∧
    { machine (regs 0 0 0 0 0 0 0 0) [0x70000000] with pc := 1 }.mem.len 0 ≤
      { machine (regs 0 0 0 0 0 0 0 0) [0x70000000] with pc := 1 }.pc.toNat := by decide

/-- IllegalOpcodeTakesDecodeError: opcodes 14 and 15 fetched, and the highest legal word (DE17). -/
theorem witness_IllegalOpcodeTakesDecodeError :
    (fetch (machine (regs 0 0 0 0 0 0 0 0) [0xE0000000]) = .ok 0xE0000000 ∧ 14 ≤ (opcodeField 0xE0000000).toNat) ∧
    (fetch (machine (regs 0 0 0 0 0 0 0 0) [0xFFFFFFFF]) = .ok 0xFFFFFFFF ∧ 14 ≤ (opcodeField 0xFFFFFFFF).toNat) ∧
    (decode 0xDFFFFFFF).wellFormed = true := by decide

/-- NextProgramCounter, RunStateTransitions, PcWrittenThreeWaysAndNeverRead and EveryStepKeepsInvariant: steps that halt,
fault, jump and go on, each from a machine that meets the invariant. -/
theorem witness_steps :
    controlAfter (step (machine (regs 0 0 0 0 3 0 0 0) [0x70000000])) = some (.halted, 0) ∧
    controlAfter (step (machine (regs 0 0 0 0 3 0 0 0) [0xE0000000])) = some (.faulted, 0) ∧
    controlAfter (step (machine (regs 0 0 0 0 3 0 0 0) [0xC0000004])) = some (.running, 3) ∧
    controlAfter (step (machine (regs 0 0 0 0 3 0 0 0) [0x30000053])) = some (.running, 1) := by decide

/-- RunStateTransitions: a machine that does not run. -/
theorem witness_RunStateTransitions : (stopRunning State.reset).run ≠ .running := by decide

/-- OnlyDestinationRegisterWritten and OnlySourceRegistersRead: an ADD that goes on, a register it does not write, and
a register file that differs from the machine's in a register it does not read. -/
theorem witness_OnlySourceRegistersRead :
    (∃ t, exec (.add 1 2 3) (machine (regs 0 0 5 6 7 0 0 0) []) = .next t) ∧ destination (.add 1 2 3) ≠ some 4 ∧
    (∀ r ∈ sources (.add 1 2 3),
      readReg { machine (regs 0 0 5 6 7 0 0 0) [] with x := regs 9 9 5 6 9 9 9 9 } r =
        readReg (machine (regs 0 0 5 6 7 0 0 0) []) r) :=
  ⟨⟨_, rfl⟩, by decide, by decide⟩

/-- NoInstructionReadsRunOrFault: an instruction that goes on. -/
theorem witness_NoInstructionReadsRunOrFault :
    ∃ t, exec (.ortho 1 5) (machine (regs 0 0 0 0 0 0 0 0) []) = .next t := ⟨_, rfl⟩

/-- FaultsArePrecise and CycleFaultsExactlyAsTabled: a fault with its word (P7), one without (CT11), and a step that
takes none. -/
theorem witness_FaultsArePrecise :
    ((machine (regs 0 9 0 0 0 0 0 0) [0x50000088]).run = .running ∧
      fetch (machine (regs 0 9 0 0 0 0 0 0) [0x50000088]) = .ok 0x50000088 ∧
      cycleFault (machine (regs 0 9 0 0 0 0 0 0) [0x50000088]) = some (⟨.divideByZero, .absent⟩, some 0x50000088) ∧
      controlAfter (step (machine (regs 0 9 0 0 0 0 0 0) [0x50000088])) = some (.faulted, 0)) ∧
    (State.reset.mem.len 0 ≤ State.reset.pc.toNat ∧ cycleFault State.reset = some (⟨.oobPc, .pc 0⟩, none) ∧
      controlAfter (step State.reset) = some (.faulted, 0)) ∧
    cycleFault (machine (regs 0 9 0 0 0 0 0 0) [0x70000000]) = none := by decide

/-- InvariantHoldsAfterResetWithImage: an image, and MAX_TABLE at both ends of its range. -/
theorem witness_InvariantHoldsAfterResetWithImage :
    ([0x70000000] : List Plate).length ≤ maxSegmentLength ∧ 1 ≤ ({ Env.atReset with maxTable := 1 } : Env).maxTable ∧
    Env.atReset.maxTable ≤ plateCount ∧ 1 ≤ Env.atReset.maxTable := by decide

/-- LoaderAssemblesBigEndianWords: LD4 and LD5, with the bytes of the one word. -/
theorem witness_LoaderAssemblesBigEndianWords :
    ([0x70, 0, 0] : List Byte).length % 4 ≠ 0 ∧
    (([0x12, 0x34, 0xAB, 0xCD] : List Byte).length % 4 = 0 ∧
      ([0x12, 0x34, 0xAB, 0xCD] : List Byte).length / 4 ≤ maxSegmentLength ∧
      ([0x12, 0x34, 0xAB, 0xCD] : List Byte)[4 * 0]? = some 0x12 ∧
      ([0x12, 0x34, 0xAB, 0xCD] : List Byte)[4 * 0 + 3]? = some 0xCD) := by decide

end Sys2Proof.Tests
end

/-! The statements of spec/10_state.md: `pc` and its three writers (R14), the run state (R16, R18) and the columns of the
register table (R12). The three noninterference statements follow from one simulation, `exec_simulates`: an instruction
executed in two machines that share the memory, the streams and the environment, and agree on the registers it reads, does
the same in both. -/

namespace Sys2Proof.Machine

/-! ### Which registers, run state and `pc` one instruction leaves -/

/-- R12 (writes). -/
theorem exec_readReg_of_ne_destination (i : Instr) (s t : State) (h : exec i s = .next t) (r : RegIdx)
    (hr : destination i ≠ some r) : readReg t r = readReg s r := by
  rcases exec_cases i s t h with ⟨-, c, w, rfl, -⟩ | ⟨-, rfl⟩ | ⟨-, -, -, -, -, -, -, -, -, -, -, hregs⟩
  · exact readReg_raiseFault c w s r
  · exact readReg_stopRunning s r
  · exact hregs r hr

/-- R14: an instruction leaves `pc`, or it is a LOADPROG that did not fault. -/
theorem exec_pc_cases (i : Instr) (s t : State) (h : exec i s = .next t) :
    t.pc = s.pc ∨ ∃ b c, i = .loadprog b c ∧ t.run = s.run ∧ t.pc = readReg s c := by
  rcases exec_cases i s t h with ⟨-, c, w, rfl, -⟩ | ⟨-, rfl⟩ | ⟨hrun, -, -, -, -, -, -, -, hpc, -⟩
  · exact .inl rfl
  · exact .inl rfl
  · exact hpc.imp_right fun ⟨b, c, hi, hpc⟩ => ⟨b, c, hi, hrun, hpc⟩

/-- R16: an instruction other than HALT takes a fault or leaves the run state and the fault record; HALT stops the
machine. -/
theorem exec_run_cases (i : Instr) (s t : State) (h : exec i s = .next t) :
    (i ≠ .halt ∧ t.run = .faulted ∧ t.fault ≠ none) ∨ (i = .halt ∧ t.run = .halted ∧ t.fault = s.fault) ∨
    (i ≠ .halt ∧ t.run = s.run ∧ t.fault = s.fault) := by
  rcases exec_cases i s t h with ⟨-, c, w, rfl, -, hraise, -⟩ | ⟨hi, rfl⟩ | ⟨hrun, hfault, hi, -⟩
  · refine .inl ⟨?_, rfl, nofun⟩
    rintro rfl
    exact nomatch hraise
  · exact .inr (.inl ⟨hi, rfl, rfl⟩)
  · exact .inr (.inr ⟨hi, hrun, hfault⟩)

/-! ### The step -/

/-- R14: the three ways a step treats `pc`. -/
theorem step_pc_cases (s t : State) (h : step s = .next t) :
    t.pc = s.pc ∨ t.pc = s.pc + 1 ∨
      ∃ w b c, fetch s = .ok w ∧ decode w = .loadprog b c ∧ t.pc = readReg s c := by
  obtain ⟨-, ⟨cause, -, rfl⟩ | ⟨w, u, hf, he, rfl⟩⟩ := step_next s t h
  · exact .inl rfl
  · rcases advance_cases (decode w) u with ha | ⟨-, hl, ha⟩ <;> rw [ha]
    · exact (exec_pc_cases _ s u he).imp_right fun ⟨b, c, hd, _, hpc⟩ => .inr ⟨w, b, c, hf, hd, hpc⟩
    · rcases exec_pc_cases _ s u he with hpc | ⟨b, c, hd, -⟩
      · exact .inr (.inl (by rw [setPc_pc, hpc]))
      · rw [hd] at hl
        exact nomatch hl

/-- The word that the next cycle executes is HALT. -/
def FetchesHalt (s : State) : Prop := ∃ w, fetch s = .ok w ∧ decode w = .halt

theorem fetchesHalt_iff_of_fetch (s : State) (w : Plate) (hf : fetch s = .ok w) :
    FetchesHalt s ↔ decode w = .halt := by
  simp [FetchesHalt, hf]

theorem not_fetchesHalt_of_error (s : State) (c : FaultCause) (hf : fetch s = .error c) : ¬ FetchesHalt s := by
  simp [FetchesHalt, hf]

/-- R16, R86: a step faults, halts or goes on. -/
theorem step_run_cases (s t : State) (h : step s = .next t) :
    (¬ FetchesHalt s ∧ t.run = .faulted ∧ t.fault ≠ none) ∨
    (FetchesHalt s ∧ t.run = .halted ∧ t.fault = s.fault) ∨
    (¬ FetchesHalt s ∧ t.run = .running ∧ t.fault = s.fault) := by
  obtain ⟨hrun, ⟨cause, hf, rfl⟩ | ⟨w, u, hf, he, rfl⟩⟩ := step_next s t h
  · exact .inl ⟨not_fetchesHalt_of_error s cause hf, rfl, nofun⟩
  · rw [fetchesHalt_iff_of_fetch s w hf, advance_run, advance_fault, ← hrun]
    exact exec_run_cases _ s u he

/-- R17, R145: a running machine that meets the invariant has no fault record. -/
theorem fault_eq_none_of_running (s : State) (hinv : StateInv s) (hrun : s.run = .running) : s.fault = none := by
  rw [← Option.not_isSome_iff_eq_none, ← hinv.faultIff, hrun]
  exact nofun

/-! ### Two machines that share everything but registers and control state -/

/-- The two machines have the same memory, streams and environment; registers, `pc`, `run` and `fault` may differ. -/
structure SameWorld (s s' : State) : Prop where
  mem : s'.mem = s.mem
  out : s'.out = s.out
  inPos : s'.inPos = s.inPos
  env : s'.env = s.env

/-- From `s` to `t` and from `s'` to `t'` the same was done: the memory, the streams and the environment are the same
after; so is each piece of the control state if it was before; each register is the same or untouched in both. -/
structure DidSame (s s' t t' : State) : Prop where
  world : SameWorld t t'
  pc : s'.pc = s.pc → t'.pc = t.pc
  run : s'.run = s.run → t'.run = t.run
  fault : s'.pc = s.pc → s'.fault = s.fault → t'.fault = t.fault
  reg : ∀ r, readReg t' r = readReg t r ∨ (readReg t' r = readReg s' r ∧ readReg t r = readReg s r)

/-- If the first answers a next state, so does the second, and the same was done. -/
def Simulates (s s' : State) (a a' : Result) : Prop := ∀ t, a = .next t → ∃ t', a' = .next t' ∧ DidSame s s' t t'

theorem simulates_next {s s' t t' : State} (h : DidSame s s' t t') : Simulates s s' (.next t) (.next t') := by
  rintro _ ⟨⟩
  exact ⟨t', rfl, h⟩

theorem currentWord_congr {s s' : State} (hw : SameWorld s s') (hpc : s'.pc = s.pc) :
    currentWord s' = currentWord s := by
  rw [currentWord, currentWord, fetch, fetch, hw.mem, hpc]

theorem ioFails_congr {s s' : State} (hw : SameWorld s s') : ioFails s' = ioFails s := by
  rw [ioFails, ioFails, hw.env]

/-! ### Every operation on the state does the same in both machines -/

section
variable {s s' t t' : State}

theorem SameWorld.didSame (hw : SameWorld s s') : DidSame s s' s s' where
  world := hw
  pc := id
  run := id
  fault _ hf := hf
  reg _ := .inr ⟨rfl, rfl⟩

theorem SameWorld.raiseFault (hw : SameWorld s s') (c : FaultCause) (w w' : Option Plate)
    (hword : s'.pc = s.pc → w' = w) : DidSame s s' (raiseFault c w s) (raiseFault c w' s') where
  world := ⟨hw.mem, hw.out, hw.inPos, hw.env⟩
  pc := id
  run _ := rfl
  fault hpc _ := by rw [raiseFault_fault, raiseFault_fault, hpc, hword hpc]
  reg _ := .inr ⟨rfl, rfl⟩

theorem SameWorld.raiseInExecute (hw : SameWorld s s') (c : FaultCause) :
    DidSame s s' (raiseInExecute c s) (raiseInExecute c s') :=
  hw.raiseFault c _ _ (currentWord_congr hw)

theorem SameWorld.stopRunning (hw : SameWorld s s') : DidSame s s' (stopRunning s) (stopRunning s') where
  world := ⟨hw.mem, hw.out, hw.inPos, hw.env⟩
  pc := id
  run _ := rfl
  fault _ hf := hf
  reg _ := .inr ⟨rfl, rfl⟩

theorem DidSame.writeReg (h : DidSame s s' t t') (i : RegIdx) (v : Plate) :
    DidSame s s' (writeReg i v t) (writeReg i v t') where
  world := ⟨h.world.mem, h.world.out, h.world.inPos, h.world.env⟩
  pc := h.pc
  run := h.run
  fault := h.fault
  reg r := by
    by_cases hr : r = i
    · subst hr
      simp
    · rw [readReg_writeReg_other t i r v hr, readReg_writeReg_other t' i r v hr]
      exact h.reg r

theorem DidSame.setPc (h : DidSame s s' t t') (p : Plate) : DidSame s s' (setPc p t) (setPc p t') where
  world := ⟨h.world.mem, h.world.out, h.world.inPos, h.world.env⟩
  pc _ := rfl
  run := h.run
  fault := h.fault
  reg := h.reg

theorem DidSame.setMem (h : DidSame s s' t t') (m : Memory) : DidSame s s' (setMem m t) (setMem m t') where
  world := ⟨rfl, h.world.out, h.world.inPos, h.world.env⟩
  pc := h.pc
  run := h.run
  fault := h.fault
  reg := h.reg

theorem DidSame.setOut (h : DidSame s s' t t') (f : List Byte → List Byte) :
    DidSame s s' { t with out := f t.out } { t' with out := f t'.out } where
  world := ⟨h.world.mem, congrArg f h.world.out, h.world.inPos, h.world.env⟩
  pc := h.pc
  run := h.run
  fault := h.fault
  reg := h.reg

theorem DidSame.setInPos (h : DidSame s s' t t') (f : Nat → Nat) :
    DidSame s s' { t with inPos := f t.inPos } { t' with inPos := f t'.inPos } where
  world := ⟨h.world.mem, h.world.out, congrArg f h.world.inPos, h.world.env⟩
  pc := h.pc
  run := h.run
  fault := h.fault
  reg := h.reg

theorem DidSame.setEnv (h : DidSame s s' t t') (f : Env → Env) :
    DidSame s s' { t with env := f t.env } { t' with env := f t'.env } where
  world := ⟨h.world.mem, h.world.out, h.world.inPos, congrArg f h.world.env⟩
  pc := h.pc
  run := h.run
  fault := h.fault
  reg := h.reg

theorem DidSame.useIoAnswer (h : DidSame s s' t t') : DidSame s s' (useIoAnswer t) (useIoAnswer t') :=
  h.setEnv fun env => { env with ioErrors := env.ioErrors.tail }

theorem DidSame.takeAllocAnswer (h : DidSame s s' t t') :
    DidSame s s' (takeAllocAnswer t).2 (takeAllocAnswer t').2 :=
  h.setEnv fun env => { env with allocFailures := env.allocFailures.tail }

theorem DidSame.countDraw (h : DidSame s s' t t') : DidSame s s' (countDraw t) (countDraw t') :=
  h.setEnv fun env => { env with poolDraws := env.poolDraws + 1 }

/-! ### Every meaning is simulated -/

theorem simulates_orFault {α : Type} (hw : SameWorld s s') (answer : Except FaultCause α) (k k' : α → State)
    (hk : ∀ v, DidSame s s' (k v) (k' v)) : Simulates s s' (orFault answer s k) (orFault answer s' k') := by
  cases answer with
  | error cause => exact simulates_next (hw.raiseInExecute cause)
  | ok v => exact simulates_next (hk v)

theorem simulates_execCmov (hw : SameWorld s s') (a b c : RegIdx) (hb : readReg s' b = readReg s b)
    (hc : readReg s' c = readReg s c) : Simulates s s' (execCmov a b c s) (execCmov a b c s') := by
  unfold execCmov
  rw [hb, hc]
  split
  · exact simulates_next hw.didSame
  · exact simulates_next (hw.didSame.writeReg a _)

/-- R40: an allocation gives the same handle in both machines, once the host can hold the plates. -/
theorem segAllocHeld_simulated (h : DidSame s s' t t') (len k : Plate) (u : State)
    (ha : segAllocHeld len t = .ok (k, u)) : ∃ u', segAllocHeld len t' = .ok (k, u') ∧ DidSame s s' u u' := by
  unfold segAllocHeld at ha ⊢
  rw [h.world.mem, h.world.env]
  cases hp : t.mem.pool with
  | cons first others =>
    rw [hp] at ha
    cases ha
    exact ⟨_, rfl, (h.setMem _).countDraw⟩
  | nil =>
    rw [hp] at ha
    by_cases hfull : t.env.maxTable ≤ t.mem.tableSize
    · simp [hfull] at ha
    · simp only [hfull, if_false] at ha ⊢
      cases ha
      exact ⟨_, rfl, h.setMem _⟩

/-- R54: the host gives both machines the same answer. -/
theorem segAlloc_simulated (hw : SameWorld s s') (len k : Plate) (u : State) (ha : segAlloc len s = .ok (k, u)) :
    ∃ u', segAlloc len s' = .ok (k, u') ∧ DidSame s s' u u' := by
  have htaken := hw.didSame.takeAllocAnswer
  rw [segAlloc, takeAllocAnswer] at ha ⊢
  rw [hw.env]
  cases hans : s.env.allocFailures.headD false with
  | true =>
    rw [hans] at ha
    cases ha
  | false =>
    rw [hans] at ha
    rw [takeAllocAnswer, takeAllocAnswer, hw.env] at htaken
    exact segAllocHeld_simulated htaken len k u ha

theorem simulates_execAlloc (hw : SameWorld s s') (b c : RegIdx) (hc : readReg s' c = readReg s c) :
    Simulates s s' (execAlloc b c s) (execAlloc b c s') := by
  intro t h
  obtain ⟨k, u, ha, rfl⟩ := execAlloc_next b c s t h
  obtain ⟨u', ha', hu⟩ := segAlloc_simulated hw _ k u ha
  exact ⟨writeReg b k u', by rw [execAlloc, hc, ha'], hu.writeReg b k⟩

theorem outRequest_error (b : Byte) (s : State) (h : ioFails s = true) : outRequest b s = (.error, s) := by
  rw [outRequest, h, if_pos rfl]

theorem inRequest_error (s : State) (h : ioFails s = true) : inRequest s = (.error, s) := by
  rw [inRequest, h, if_pos rfl]

theorem simulates_execOut (hw : SameWorld s s') (c : RegIdx) (hc : readReg s' c = readReg s c) :
    Simulates s s' (execOut c s) (execOut c s') := by
  have hio := ioFails_congr hw
  rw [execOut, execOut, hc]
  cases hf : ioFails s with
  | true =>
    rw [outRequest_error _ s hf, outRequest_error _ s' (hio.trans hf)]
    exact simulates_next (hw.raiseInExecute _)
  | false =>
    rw [outRequest_done _ s hf, outRequest_done _ s' (hio.trans hf)]
    exact simulates_next (hw.didSame.setOut (· ++ [lowByte (readReg s c)])).useIoAnswer

theorem simulates_execInp (hw : SameWorld s s') (c : RegIdx) : Simulates s s' (execInp c s) (execInp c s') := by
  have hio := ioFails_congr hw
  have hin : s'.env.input[s'.inPos]? = s.env.input[s.inPos]? := by rw [hw.env, hw.inPos]
  rw [execInp, execInp]
  cases hf : ioFails s with
  | true =>
    rw [inRequest_error s hf, inRequest_error s' (hio.trans hf)]
    exact simulates_next (hw.raiseInExecute _)
  | false =>
    cases hb : s.env.input[s.inPos]? with
    | none =>
      rw [inRequest_end s hf hb, inRequest_end s' (hio.trans hf) (hin.trans hb)]
      exact simulates_next (hw.didSame.useIoAnswer.writeReg c _)
    | some b =>
      rw [inRequest_byte b s hf hb, inRequest_byte b s' (hio.trans hf) (hin.trans hb)]
      exact simulates_next ((hw.didSame.setInPos (· + 1)).useIoAnswer.writeReg c _)

theorem simulates_execLoadprog (hw : SameWorld s s') (b c : RegIdx) (hb : readReg s' b = readReg s b)
    (hc : readReg s' c = readReg s c) : Simulates s s' (execLoadprog b c s) (execLoadprog b c s') := by
  unfold execLoadprog
  rw [hb, hc, hw.mem]
  split
  · exact simulates_next (hw.didSame.setPc _)
  · exact simulates_orFault hw _ _ _ fun m => (hw.didSame.setMem m).setPc _

/-- R12, R14, R18: an instruction reads its source registers, the memory, the streams and the environment, and nothing
else. -/
theorem exec_simulates (hw : SameWorld s s') (i : Instr) (hsrc : ∀ r ∈ sources i, readReg s' r = readReg s r) :
    Simulates s s' (exec i s) (exec i s') := by
  cases i <;> simp only [sources, List.forall_mem_cons] at hsrc <;> simp only [exec]
  case cmov a b c =>
    obtain ⟨hb, hc, -⟩ := hsrc
    exact simulates_execCmov hw a b c hb hc
  case aidx a b c =>
    obtain ⟨hb, hc, -⟩ := hsrc
    rw [execAidx, execAidx, hw.mem, hb, hc]
    exact simulates_orFault hw _ _ _ fun v => hw.didSame.writeReg a v
  case amend a b c =>
    obtain ⟨ha, hb, hc, -⟩ := hsrc
    rw [execAmend, execAmend, hw.mem, ha, hb, hc]
    exact simulates_orFault hw _ _ _ fun m => hw.didSame.setMem m
  case add a b c =>
    obtain ⟨hb, hc, -⟩ := hsrc
    rw [execAdd, execAdd, hb, hc]
    exact simulates_next (hw.didSame.writeReg a _)
  case mul a b c =>
    obtain ⟨hb, hc, -⟩ := hsrc
    rw [execMul, execMul, hb, hc]
    exact simulates_next (hw.didSame.writeReg a _)
  case div a b c =>
    obtain ⟨hb, hc, -⟩ := hsrc
    rw [execDiv, execDiv, hb, hc]
    exact simulates_orFault hw _ _ _ fun q => hw.didSame.writeReg a q
  case nand a b c =>
    obtain ⟨hb, hc, -⟩ := hsrc
    rw [execNand, execNand, hb, hc]
    exact simulates_next (hw.didSame.writeReg a _)
  case halt => exact simulates_next hw.stopRunning
  case alloc b c => exact simulates_execAlloc hw b c hsrc.1
  case aband c =>
    obtain ⟨hc, -⟩ := hsrc
    rw [execAband, execAband, hw.mem, hc]
    exact simulates_orFault hw _ _ _ fun m => hw.didSame.setMem m
  case out c => exact simulates_execOut hw c hsrc.1
  case inp c => exact simulates_execInp hw c
  case loadprog b c =>
    obtain ⟨hb, hc, -⟩ := hsrc
    exact simulates_execLoadprog hw b c hb hc
  case ortho r imm => exact simulates_next (hw.didSame.writeReg r _)
  case illegal14 rest => exact simulates_next (hw.raiseFault _ _ _ fun _ => rfl)
  case illegal15 rest => exact simulates_next (hw.raiseFault _ _ _ fun _ => rfl)

/-- Two machines with the same registers before have the same registers after. -/
theorem DidSame.x_eq (h : DidSame s s' t t') (hx : s'.x = s.x) : t'.x = t.x := by
  apply Vector.ext
  intro k hk
  have hreg : readReg t' (BitVec.ofNatLT k hk) = readReg t (BitVec.ofNatLT k hk) := by
    rcases h.reg (BitVec.ofNatLT k hk) with hr | ⟨hr', hr⟩
    · exact hr
    · rw [hr', hr, readReg_congr s s' hx]
  exact hreg

end

/-! ### The statements -/

/-- Settles O36: reset by definition, the writers from `exec_pc_cases` and `step_pc_cases`, the reads from the simulation
of the machine with another `pc`. -/
theorem pcWrittenThreeWaysAndNeverRead : Obligations.PcWrittenThreeWaysAndNeverRead := by
  refine ⟨fun _ _ => rfl, exec_pc_cases, step_pc_cases, fun i s t p h => ?_⟩
  have hw : SameWorld s { s with pc := p } := ⟨rfl, rfl, rfl, rfl⟩
  obtain ⟨t', h', hsame⟩ := exec_simulates hw i (fun _ _ => rfl) t h
  exact ⟨t', h', hsame.x_eq rfl, hsame.run rfl, hsame.world.mem, hsame.world.out, hsame.world.inPos, hsame.world.env⟩

/-- Settles O37: a step faults, halts or goes on (`step_run_cases`), and there was no fault record before it. -/
theorem runStateTransitions : Obligations.RunStateTransitions := by
  refine ⟨fun s hstop t h => hstop (step_next s t h).1, fun s t hinv h => ?_⟩
  have hnone := fault_eq_none_of_running s hinv (step_next s t h).1
  change (t.run = .halted ↔ FetchesHalt s) ∧ _ ∧ (_ → t.run = .halted ∧ t.fault = none)
  rcases step_run_cases s t h with ⟨hw, hrun, hfault⟩ | ⟨hw, hrun, hfault⟩ | ⟨hw, hrun, hfault⟩
  · simp [hw, hrun, hfault]
  · simp [hw, hrun, hfault, hnone]
  · simp [hw, hrun, hfault, hnone]

/-- Settles O38. -/
theorem onlyDestinationRegisterWritten : Obligations.OnlyDestinationRegisterWritten :=
  exec_readReg_of_ne_destination

/-- Settles O39: the simulation of the machine with another register file. -/
theorem onlySourceRegistersRead : Obligations.OnlySourceRegistersRead := by
  intro i s t y hsrc h
  have hw : SameWorld s { s with x := y } := ⟨rfl, rfl, rfl, rfl⟩
  obtain ⟨t', h', hsame⟩ := exec_simulates hw i hsrc t h
  exact ⟨t', h', hsame.pc rfl, hsame.run rfl, hsame.fault rfl rfl, hsame.world.mem, hsame.world.out, hsame.world.inPos,
    hsame.world.env, hsame.reg⟩

/-- Settles O40: the simulation of the machine with another run state and fault record. -/
theorem noInstructionReadsRunOrFault : Obligations.NoInstructionReadsRunOrFault := by
  intro i s t r f h
  have hw : SameWorld s { s with run := r, fault := f } := ⟨rfl, rfl, rfl, rfl⟩
  obtain ⟨t', h', hsame⟩ := exec_simulates hw i (fun _ _ => rfl) t h
  exact ⟨t', h', hsame.x_eq rfl, hsame.pc rfl, hsame.world.mem, hsame.world.out, hsame.world.inPos, hsame.world.env⟩

end Sys2Proof.Machine

/-! The statements of spec/20_memory.md: the handle and offset checks (R35), the write, abandon, load and allocate
transactions (R38 to R44, R54), the streams (R48 to R50), the loader's words (R52), and the invariant of reachable states.
The statements about runs rest on two facts about one step: `step_extends`, what it does to the memory, the streams and
the arguments, and `step_record_fits`, the fault record it leaves. -/

namespace Sys2Proof.Machine

/-! ### Reads and writes (R35, R37, R38) -/

section
variable {m m' : Memory} {h j v : Plate}

theorem memRead_not_allocated (ha : m.allocated h = false) : memRead m h j = .error ⟨.oobSegment, .handle h⟩ := by
  rw [memRead, checkAccess_no_segment m h j ha]

theorem memWrite_not_allocated (ha : m.allocated h = false) : memWrite m h j v = .error ⟨.oobSegment, .handle h⟩ := by
  rw [memWrite, checkAccess_no_segment m h j ha]

theorem memRead_beyond_length (ha : m.allocated h = true) (hj : m.len h ≤ j.toNat) :
    memRead m h j = .error ⟨.oobCell, .cell h j⟩ := by
  rw [memRead, checkAccess_no_cell m h j ha hj]

theorem memWrite_beyond_length (ha : m.allocated h = true) (hj : m.len h ≤ j.toNat) :
    memWrite m h j v = .error ⟨.oobCell, .cell h j⟩ := by
  rw [memWrite, checkAccess_no_cell m h j ha hj]

theorem memWrite_eq_ok (ha : m.allocated h = true) (hj : j.toNat < m.len h) :
    memWrite m h j v = .ok (m.setSeg h ((m.seg h).put j v)) := by
  rw [memWrite, (checkAccess_ok_iff m h j).2 ⟨ha, hj⟩]

/-- Replacing the segment of one handle is not seen through another. -/
theorem memRead_setSeg_other (ha : m.allocated h = true) (sg : Segment) {k : Plate} (hk : k ≠ h) (i : Plate) :
    memRead (m.setSeg h sg) k i = memRead m k i := by
  have hseg : (m.setSeg h sg).seg k = m.seg k := by
    rw [memory_seg_setSeg m h k sg ((memory_allocated_iff m h).1 ha).1, if_neg hk]
  apply memRead_congr
  · exact memory_setSeg_allocated m h k sg
  · rw [Memory.len, hseg, Memory.len]
  · intro _ _
    rw [hseg]

/-- R38: a write never extends a segment. -/
theorem memWrite_len (hw : memWrite m h j v = .ok m') (k : Plate) : m'.len k = m.len k := by
  obtain ⟨ha, -, rfl⟩ := memWrite_ok m m' h j v hw
  rw [Memory.len, memory_seg_setSeg m h k _ ((memory_allocated_iff m h).1 ha).1]
  split
  · next hk => rw [segment_put_len, hk, Memory.len]
  · rfl

/-- R38: the table and the pool are left as they were. -/
theorem memWrite_allocated (hw : memWrite m h j v = .ok m') (k : Plate) : m'.allocated k = m.allocated k := by
  obtain ⟨-, -, rfl⟩ := memWrite_ok m m' h j v hw
  exact memory_setSeg_allocated m h k _

theorem memRead_memWrite_same (hwf : m.wf = true) (hw : memWrite m h j v = .ok m') : memRead m' h j = .ok v := by
  obtain ⟨ha, hj, heq⟩ := memWrite_ok m m' h j v hw
  rw [memRead_eq_ok m' h j ((memWrite_allocated hw h).trans ha) ((memWrite_len hw h).symm ▸ hj), heq,
    memory_seg_setSeg m h h _ ((memory_allocated_iff m h).1 ha).1, if_pos rfl,
    segment_get_put _ j j v (memory_seg_wf m h hwf), if_pos rfl]

/-- R38: a write to one segment is not seen in another. -/
theorem memRead_memWrite_other_segment (hw : memWrite m h j v = .ok m') {k : Plate} (hk : k ≠ h) (i : Plate) :
    memRead m' k i = memRead m k i := by
  obtain ⟨ha, -, rfl⟩ := memWrite_ok m m' h j v hw
  exact memRead_setSeg_other ha _ hk i

/-- R38: a write to one cell is not seen in another of the same segment. -/
theorem memRead_memWrite_other_offset (hwf : m.wf = true) (hw : memWrite m h j v = .ok m') {i : Plate} (hi : i ≠ j) :
    memRead m' h i = memRead m h i := by
  apply memRead_congr
  · exact memWrite_allocated hw h
  · exact memWrite_len hw h
  · intro _ _
    obtain ⟨ha, -, rfl⟩ := memWrite_ok m m' h j v hw
    rw [memory_seg_setSeg m h h _ ((memory_allocated_iff m h).1 ha).1, if_pos rfl,
      segment_get_put _ i j v (memory_seg_wf m h hwf), if_neg hi]

end

/-- Settles O22. -/
theorem handleCheckBeforeOffsetCheck : Obligations.HandleCheckBeforeOffsetCheck := by
  refine fun m h j v => ⟨fun hna => ?_, fun hh hp hj => ?_, fun hh hp hj => ?_⟩
  · have ha := (memory_not_allocated_iff m h).2 hna
    exact ⟨memRead_not_allocated ha, memWrite_not_allocated ha⟩
  · have ha := (memory_allocated_iff m h).2 ⟨hh, hp⟩
    exact ⟨memRead_beyond_length ha hj, memWrite_beyond_length ha hj⟩
  · have ha := (memory_allocated_iff m h).2 ⟨hh, hp⟩
    exact ⟨memRead_eq_ok m h j ha hj, _, memWrite_eq_ok ha hj⟩

/-- Settles O23. -/
theorem memWriteChangesExactlyOneCell : Obligations.MemWriteChangesExactlyOneCell := by
  refine fun m h j v hwf => ⟨memWrite_not_allocated, memWrite_beyond_length, fun ha hj => ?_⟩
  have hw : memWrite m h j v = .ok _ := memWrite_eq_ok ha hj
  refine ⟨_, hw, memRead_memWrite_same hwf hw, fun k i hne => ?_, memWrite_len hw, memory_setSeg_tableSize m h _,
    memory_setSeg_pool m h _, memWrite_wf m _ h j v hwf hw⟩
  by_cases hk : k = h
  · subst hk
    exact memRead_memWrite_other_offset hwf hw fun hi => hne ⟨rfl, hi⟩
  · exact memRead_memWrite_other_segment hw hk i

/-! ### The load-program transaction (R44) -/

theorem segLoadProgram_not_allocated {m : Memory} {h : Plate} (ha : m.allocated h = false) :
    segLoadProgram m h = .error ⟨.oobSegment, .handle h⟩ := by
  rw [segLoadProgram, if_pos ha]

theorem segLoadProgram_eq_ok {m : Memory} {h : Plate} (ha : m.allocated h = true) :
    segLoadProgram m h = .ok (m.setSeg 0 (m.seg h)) := by
  rw [segLoadProgram, ha, if_neg nofun]

/-- Settles O24: after the load the two segments are two entries of the table, so a write to one is a write to another
segment for the other. -/
theorem loadProgramCopiesWithoutAliasing : Obligations.LoadProgramCopiesWithoutAliasing := by
  refine fun m h hwf h0 => ⟨segLoadProgram_not_allocated, fun ha => ?_⟩
  have hzero := memory_zero_allocated m hwf
  have hseg : (m.setSeg 0 (m.seg h)).seg 0 = m.seg h := by
    rw [memory_seg_setSeg m 0 0 _ ((memory_allocated_iff m 0).1 hzero).1, if_pos rfl]
  have hlen : (m.setSeg 0 (m.seg h)).len 0 = m.len h := by rw [Memory.len, hseg, Memory.len]
  refine ⟨_, segLoadProgram_eq_ok ha, hlen, fun j hj => ?_, fun k j hk => memRead_setSeg_other hzero _ hk j,
    (memory_setSeg_allocated m 0 h _).trans ha, fun i v m2 hw j => memRead_memWrite_other_segment hw h0.symm j,
    fun i v m2 hw j => memRead_memWrite_other_segment hw h0 j⟩
  rw [memRead_eq_ok m h j ha hj, memRead_eq_ok _ 0 j ((memory_setSeg_allocated m 0 0 _).trans hzero) (hlen.symm ▸ hj),
    hseg]

/-! ### The allocate transaction (R40, R54) -/

/-- R54: the two refusals of an allocation, host memory first (log 6). -/
theorem segAlloc_error_iff (len : Plate) (s : State) (r : Refusal) :
    segAlloc len s = .error r ↔
      (s.env.allocFailures.headD false = true ∧ r = .hostOutOfMemory) ∨
      (s.env.allocFailures.headD false = false ∧ s.mem.pool = [] ∧ s.env.maxTable ≤ s.mem.tableSize ∧
        r = .segmentTableFull) := by
  rw [segAlloc, takeAllocAnswer]
  cases s.env.allocFailures.headD false with
  | true => simp [eq_comm]
  | false =>
    cases hp : s.mem.pool with
    | cons first others => simp [segAllocHeld, hp]
    | nil =>
      by_cases hfull : s.env.maxTable ≤ s.mem.tableSize
      · simp [segAllocHeld, hp, hfull, eq_comm]
      · simp [segAllocHeld, hp, hfull]

theorem execAlloc_refused (b c : RegIdx) (s : State) (r : Refusal) (ha : segAlloc (readReg s c) s = .error r) :
    exec (.alloc b c) s = .refused r := by
  rw [exec, execAlloc, ha]

theorem execAlloc_of_segAlloc (b c : RegIdx) (s t : State) (h : Plate) (ha : segAlloc (readReg s c) s = .ok (h, t)) :
    exec (.alloc b c) s = .next (writeReg b h t) := by
  rw [exec, execAlloc, ha]

/-- R40: an allocation that the host can hold reuses the pool's pick. -/
theorem segAlloc_reuses (len first : Plate) (others : List Plate) (s : State)
    (hhost : s.env.allocFailures.headD false = false) (hp : s.mem.pool = first :: others) :
    segAlloc len s = .ok (poolMember s.env first others,
      countDraw (setMem (s.mem.reuse (poolMember s.env first others) len) (takeAllocAnswer s).2)) := by
  simp only [segAlloc, takeAllocAnswer, hhost, segAllocHeld, hp]
  rfl

/-- D10: last-in first-out takes the head of the pool. -/
theorem poolMember_of_lifo (env : Env) (first : Plate) (others : List Plate) (hlifo : env.poolPick = .lifo) :
    poolMember env first others = first := by
  simp [poolMember, poolPosition, hlifo]

/-- R40: an ALLOC with a non-empty pool returns a member of it and reuses that member's entry of the table. -/
theorem execAlloc_reuses (b c : RegIdx) (s t : State) (hp : s.mem.pool ≠ []) (h : exec (.alloc b c) s = .next t) :
    readReg t b ∈ s.mem.pool ∧ t.mem = s.mem.reuse (readReg t b) (readReg s c) := by
  obtain ⟨k, u, ha, rfl⟩ := execAlloc_next b c s t h
  rw [readReg_writeReg_same, writeReg_mem]
  rcases segAlloc_ok _ k s u ha with ⟨first, others, hpool, rfl, rfl⟩ | ⟨hnil, -⟩
  · exact ⟨hpool ▸ poolMember_mem s.env first others, rfl⟩
  · exact absurd hnil hp

/-- Settles O18. -/
theorem allocRefusedOnExhaustion : Obligations.AllocRefusedOnExhaustion :=
  fun b c s => ⟨fun hhost => execAlloc_refused b c s _ ((segAlloc_error_iff ..).2 (.inl ⟨hhost, rfl⟩)),
    fun hhost hp hfull => execAlloc_refused b c s _ ((segAlloc_error_iff ..).2 (.inr ⟨hhost, hp, hfull, rfl⟩))⟩

/-! ### Abandoned handles (R42, R43) -/

theorem segAbandon_pool {m m' : Memory} {h : Plate} (hq : segAbandon m h = .ok m') : m'.pool = h :: m.pool := by
  obtain ⟨-, -, rfl⟩ := segAbandon_ok m m' h hq
  rfl

theorem segAbandon_not_allocated {m : Memory} {h : Plate} (ha : m.allocated h = false) :
    segAbandon m h = .error ⟨.oobSegment, .handle h⟩ := by
  rw [segAbandon, if_pos ha, ite_self]

/-- R31: a member of the pool is not allocated. -/
theorem not_allocated_of_mem_pool {m : Memory} {h : Plate} (hp : h ∈ m.pool) : m.allocated h = false :=
  (memory_not_allocated_iff m h).2 fun ha => ha.2 hp

/-- R40, R42: an instruction keeps the pool, ABAND adds the abandoned handle, ALLOC takes out the one it returns. -/
theorem exec_pool_cases (i : Instr) (s t : State) (h : exec i s = .next t) :
    t.mem.pool = s.mem.pool ∨ (∃ k, t.mem.pool = k :: s.mem.pool) ∨
      ∃ b c, i = .alloc b c ∧ t.mem.pool = s.mem.pool.filter (fun k => decide (k ≠ readReg t b)) := by
  cases i with
  | cmov a b c => rcases execCmov_next a b c s with he | he <;> cases he.symm.trans h <;> exact .inl rfl
  | aidx a b c => rcases execAidx_next a b c s t h with ⟨_, -, rfl⟩ | ⟨_, -, rfl⟩ <;> exact .inl rfl
  | amend a b c =>
    rcases execAmend_next a b c s t h with ⟨_, -, rfl⟩ | ⟨m, hw, rfl⟩
    · exact .inl rfl
    · obtain ⟨-, -, rfl⟩ := memWrite_ok _ _ _ _ _ hw
      exact .inl rfl
  | div a b c => rcases execDiv_next a b c s t h with rfl | ⟨_, rfl⟩ <;> exact .inl rfl
  | alloc b c =>
    by_cases hp : s.mem.pool = []
    · obtain ⟨k, u, ha, rfl⟩ := execAlloc_next b c s t h
      rcases segAlloc_ok _ k s u ha with ⟨first, others, hcons, -⟩ | ⟨-, -, -, rfl⟩
      · exact absurd (hcons.symm.trans hp) (List.cons_ne_nil first others)
      · exact .inl rfl
    · obtain ⟨-, hmem⟩ := execAlloc_reuses b c s t hp h
      exact .inr (.inr ⟨b, c, rfl, congrArg Memory.pool hmem⟩)
  | aband c =>
    rcases execAband_next c s t h with ⟨_, -, rfl⟩ | ⟨m, hq, rfl⟩
    · exact .inl rfl
    · exact .inr (.inl ⟨_, segAbandon_pool hq⟩)
  | out c => rcases execOut_next c s t h with ⟨-, rfl⟩ | ⟨-, rfl⟩ <;> exact .inl rfl
  | inp c => rcases execInp_next c s t h with ⟨-, rfl⟩ | ⟨-, -, rfl⟩ | ⟨-, _, -, rfl⟩ <;> exact .inl rfl
  | loadprog b c =>
    rcases execLoadprog_next b c s t h with ⟨-, rfl⟩ | ⟨-, _, -, rfl⟩ | ⟨-, m, hq, rfl⟩
    · exact .inl rfl
    · exact .inl rfl
    · obtain ⟨-, rfl⟩ := segLoadProgram_ok _ _ _ hq
      exact .inl rfl
  | add => cases h; exact .inl rfl
  | mul => cases h; exact .inl rfl
  | nand => cases h; exact .inl rfl
  | halt => cases h; exact .inl rfl
  | ortho => cases h; exact .inl rfl
  | illegal14 => cases h; exact .inl rfl
  | illegal15 => cases h; exact .inl rfl

/-- R43: a handle leaves the pool only when ALLOC returns it. -/
theorem exec_keeps_pool_member (h : Plate) (i : Instr) (s t : State) (hp : h ∈ s.mem.pool) (he : exec i s = .next t) :
    h ∈ t.mem.pool ∨ ∃ b c, i = .alloc b c ∧ readReg t b = h := by
  rcases exec_pool_cases i s t he with hsame | ⟨k, hadd⟩ | ⟨b, c, hi, htake⟩
  · exact .inl (hsame ▸ hp)
  · exact .inl (hadd ▸ List.mem_cons_of_mem k hp)
  · by_cases hb : readReg t b = h
    · exact .inr ⟨b, c, hi, hb⟩
    · rw [htake]
      exact .inl (List.mem_filter.2 ⟨hp, decide_eq_true (Ne.symm hb)⟩)

/-- Settles O20. -/
theorem abandonedHandleFaultsUntilReused : Obligations.AbandonedHandleFaultsUntilReused := by
  refine fun h => ⟨fun m m' hq => segAbandon_pool hq ▸ List.mem_cons_self, fun m hp => ?_, exec_keeps_pool_member h,
    fun b c s t hwf hp he hb => ?_⟩
  · have ha := not_allocated_of_mem_pool hp
    exact ⟨ha, fun _ => memRead_not_allocated ha, fun _ _ => memWrite_not_allocated ha, segAbandon_not_allocated ha,
      segLoadProgram_not_allocated ha⟩
  · obtain ⟨-, hmem⟩ := execAlloc_reuses b c s t (List.ne_nil_of_mem hp) he
    obtain ⟨-, -, halloc, hlen, hzero, -⟩ := memory_reuse_facts s.mem h (readReg s c) hwf hp
    rw [hmem, hb]
    exact ⟨halloc, hlen, hzero⟩

/-- Settles O21: the ABAND that changed the memory put its handle at the head of the pool. -/
theorem lifoReusesHandleAbandonedLast : Obligations.LifoReusesHandleAbandonedLast := by
  intro a b c s t hwf haband hne hlifo hhost
  rcases execAband_next a s t haband with ⟨_, -, rfl⟩ | ⟨m, hq, rfl⟩
  · exact absurd rfl hne
  · have hpool := segAbandon_pool hq
    have hpick := poolMember_of_lifo s.env (readReg s a) s.mem.pool hlifo
    obtain ⟨-, -, -, hlen, hzero, -⟩ := memory_reuse_facts m (readReg s a) (readReg s c)
      (segAbandon_wf s.mem m _ hwf hq) (hpool ▸ List.mem_cons_self)
    have halloc := segAlloc_reuses (readReg s c) (readReg s a) s.mem.pool (setMem m s) hhost hpool
    rw [setMem_env, setMem_mem, hpick] at halloc
    have hexec := execAlloc_of_segAlloc b c (setMem m s) _ _ halloc
    exact ⟨_, hexec, readReg_writeReg_same _ b (readReg s a), hlen, hzero⟩

/-! ### What a step does to the memory, the streams and the arguments -/

/-- From `s` to `t` the memory keeps its form and at most one entry, one byte of output and one byte of input came;
the arguments are the same. -/
structure Extends (s t : State) : Prop where
  memWf : s.mem.wf = true → t.mem.wf = true
  table : t.mem.tableSize = s.mem.tableSize ∨
    (s.mem.tableSize < s.env.maxTable ∧ t.mem.tableSize = s.mem.tableSize + 1)
  out : t.out = s.out ∨ ∃ b, t.out = s.out ++ [b]
  inPos : t.inPos = s.inPos ∨ (s.inPos < s.env.input.length ∧ t.inPos = s.inPos + 1)
  args : SameArguments s t

theorem SameArguments.trans {s t u : State} (h : SameArguments s t) (h' : SameArguments t u) : SameArguments s u := by
  obtain ⟨hi, hp, hm, hf⟩ := h
  obtain ⟨hi', hp', hm', hf'⟩ := h'
  exact ⟨hi'.trans hi, hp'.trans hp, hm'.trans hm, hf'.trans hf⟩

/-- A fault entry, HALT and the increment of `pc` touch none of it. -/
theorem extends_of_eq {s t : State} (hmem : t.mem = s.mem) (hout : t.out = s.out) (hin : t.inPos = s.inPos)
    (henv : t.env = s.env) : Extends s t where
  memWf hwf := hmem ▸ hwf
  table := .inl (by rw [hmem])
  out := .inl hout
  inPos := .inl hin
  args := by rw [SameArguments, henv]; exact ⟨rfl, rfl, rfl, rfl⟩

theorem exec_extends (i : Instr) (s u : State) (h : exec i s = .next u) : Extends s u := by
  rcases exec_cases i s u h with ⟨-, c, w, rfl, -⟩ | ⟨-, rfl⟩ | ⟨-, -, -, hwf, htable, hargs, hin, hout, -⟩
  · exact extends_of_eq rfl rfl rfl rfl
  · exact extends_of_eq rfl rfl rfl rfl
  · exact ⟨hwf, htable, hout, hin, hargs⟩

theorem step_extends (s t : State) (h : step s = .next t) : Extends s t := by
  obtain ⟨-, ⟨cause, -, rfl⟩ | ⟨w, u, -, he, rfl⟩⟩ := step_next s t h
  · exact extends_of_eq rfl rfl rfl rfl
  · obtain ⟨hwf, htable, hout, hin, hargs⟩ := exec_extends (decode w) s u he
    exact ⟨by rwa [advance_mem], by rwa [advance_mem], by rwa [advance_out], by rwa [advance_inPos],
      by rwa [SameArguments, advance_env]⟩

/-! ### The invariant of reachable states -/

/-- R131: the record of a fetch fault. -/
theorem fits_of_oobPc (pc : Plate) : FaultRecord.fits ⟨.oobPc, pc, none, .pc pc⟩ = true :=
  Bool.and_eq_true_iff.2 ⟨decide_eq_true rfl, rfl⟩

/-- R131, R132, R134: the record of a step that faults is one its instruction can raise, at the `pc` that is held. -/
theorem step_record_fits (s t : State) (h : step s = .next t) (hrun : t.run = .faulted) (r : FaultRecord)
    (hr : t.fault = some r) : r.pc = t.pc ∧ r.fits = true := by
  obtain ⟨hrunning, ⟨cause, hf, rfl⟩ | ⟨w, u, hf, he, rfl⟩⟩ := step_next s t h
  · obtain ⟨-, rfl⟩ := fetch_error s cause hf
    cases hr
    exact ⟨rfl, fits_of_oobPc s.pc⟩
  · rw [advance_run] at hrun
    rw [advance_of_stopped _ u (by rw [hrun]; nofun)] at hr ⊢
    rcases exec_cases _ s u he with ⟨-, c, word, rfl, hword, hraise, hinfo⟩ | ⟨-, rfl⟩ | ⟨hkept, -⟩
    · cases hr
      rw [hword w hf rfl]
      exact ⟨rfl, by simp [FaultRecord.fits, hraise, hinfo]⟩
    · exact nomatch hrun
    · rw [hkept, hrunning] at hrun
      exact nomatch hrun

/-- R16, R17: a step from a state without a record leaves one exactly when it faults. -/
theorem step_fault_iff (s t : State) (h : step s = .next t) (hnone : s.fault = none) :
    t.run = .faulted ↔ t.fault.isSome = true := by
  rcases step_run_cases s t h with ⟨-, hrun, hfault⟩ | ⟨-, hrun, hfault⟩ | ⟨-, hrun, hfault⟩
  · simp [hrun, Option.isSome_iff_ne_none, hfault]
  · simp [hrun, hfault, hnone]
  · simp [hrun, hfault, hnone]

/-- Settles O48: the memory, table and stream parts from `step_extends`, the fault record from `step_fault_iff` and
`step_record_fits`; before the step the machine was running and had no record. -/
theorem everyStepKeepsInvariant : Obligations.EveryStepKeepsInvariant := by
  intro s t hinv h
  have hnone := fault_eq_none_of_running s hinv (step_next s t h).1
  have hiff := step_fault_iff s t h hnone
  obtain ⟨hwf, htable, -, hin, hinput, -, hmax, -⟩ := step_extends s t h
  have hfits := hinv.tableFits
  have hpos := hinv.inPosFits
  exact {
    memWf := hwf hinv.memWf
    tableFits := by rw [hmax]; omega
    maxTableFits := by rw [hmax]; exact hinv.maxTableFits
    inPosFits := by rw [hinput]; omega
    faultIff := hiff
    recordFits := fun r hr => step_record_fits s t h (hiff.2 (by rw [hr]; rfl)) r hr }

/-! ### Runs -/

/-- What `Extends` leaves over any number of steps (R30, R48, R50, R24). -/
def Grows (s t : State) : Prop :=
  s.out <+: t.out ∧ s.inPos ≤ t.inPos ∧ s.mem.tableSize ≤ t.mem.tableSize ∧ SameArguments s t

theorem Grows.refl (s : State) : Grows s s := ⟨List.prefix_rfl, le_rfl, le_rfl, rfl, rfl, rfl, rfl⟩

theorem Grows.trans {s t u : State} (h : Grows s t) (h' : Grows t u) : Grows s u := by
  obtain ⟨hout, hin, htable, hargs⟩ := h
  obtain ⟨hout', hin', htable', hargs'⟩ := h'
  exact ⟨hout.trans hout', hin.trans hin', htable.trans htable', hargs.trans hargs'⟩

theorem Extends.grows {s t : State} (h : Extends s t) : Grows s t := by
  obtain ⟨-, htable, hout, hin, hargs⟩ := h
  refine ⟨?_, by omega, by omega, hargs⟩
  rcases hout with hout | ⟨b, hout⟩ <;> rw [hout]
  exact List.prefix_append s.out [b]

/-- Settles O29. -/
theorem runsOnlyExtendStreamsAndTable : Obligations.RunsOnlyExtendStreamsAndTable :=
  reaches_induction Grows Grows.refl fun s t _ h hrest => (step_extends s t h).grows.trans hrest

/-- R49: at the end of INPUT nothing is consumed any more. -/
def InputStays (s t : State) : Prop :=
  s.env.input.length ≤ s.inPos → t.inPos = s.inPos ∧ t.env.input = s.env.input

theorem InputStays.trans {s t u : State} (h : InputStays s t) (h' : InputStays t u) : InputStays s u := by
  intro hend
  obtain ⟨hin, hinput⟩ := h hend
  obtain ⟨hin', hinput'⟩ := h' (by rw [hin, hinput]; exact hend)
  exact ⟨hin'.trans hin, hinput'.trans hinput⟩

theorem Extends.inputStays {s t : State} (h : Extends s t) : InputStays s t := by
  intro hend
  obtain ⟨-, -, -, hin, hinput, -⟩ := h
  exact ⟨by omega, hinput⟩

theorem reaches_inputStays : ∀ k s u, Reaches k s u → InputStays s u :=
  reaches_induction InputStays (fun _ _ => ⟨rfl, rfl⟩) fun s t _ h hrest => (step_extends s t h).inputStays.trans hrest

/-- R116: IN at the end of INPUT. -/
theorem execInp_at_end (c : RegIdx) (s : State) (hio : ioFails s = false) (hend : s.env.input.length ≤ s.inPos) :
    exec (.inp c) s = .next (writeReg c endOfInputValue (useIoAnswer s)) := by
  rw [exec, execInp, inRequest_end s hio (List.getElem?_eq_none hend)]

/-- Settles O28: the end of INPUT is where it was when the run reaches the IN. -/
theorem endOfInputIsSticky : Obligations.EndOfInputIsSticky := by
  intro k s u c hend hrun hio
  obtain ⟨hin, hinput⟩ := reaches_inputStays k s u hrun hend
  have hend' : u.env.input.length ≤ u.inPos := by rw [hin, hinput]; exact hend
  exact ⟨_, execInp_at_end c u hio hend', readReg_writeReg_same _ c endOfInputValue, hin⟩

/-! ### A running machine has a successor (R54, R80, R86) -/

theorem orFault_has_next {α : Type} (answer : Except FaultCause α) (s : State) (k : α → State) :
    ∃ t, orFault answer s k = .next t := by
  cases answer with
  | error cause => exact ⟨_, rfl⟩
  | ok v => exact ⟨_, rfl⟩

theorem execOut_has_next (c : RegIdx) (s : State) : ∃ t, execOut c s = .next t := by
  rw [execOut]
  cases hio : ioFails s with
  | true => rw [outRequest_error _ s hio]; exact ⟨_, rfl⟩
  | false => rw [outRequest_done _ s hio]; exact ⟨_, rfl⟩

theorem execInp_has_next (c : RegIdx) (s : State) : ∃ t, execInp c s = .next t := by
  rw [execInp]
  cases hio : ioFails s with
  | true => rw [inRequest_error s hio]; exact ⟨_, rfl⟩
  | false =>
    cases hb : s.env.input[s.inPos]? with
    | none => rw [inRequest_end s hio hb]; exact ⟨_, rfl⟩
    | some b => rw [inRequest_byte b s hio hb]; exact ⟨_, rfl⟩

theorem execLoadprog_has_next (b c : RegIdx) (s : State) : ∃ t, execLoadprog b c s = .next t := by
  rw [execLoadprog]
  split
  · exact ⟨_, rfl⟩
  · exact orFault_has_next _ s _

/-- Every instruction answers a next state but an ALLOC that is refused. -/
theorem exec_next_or_alloc_refused (i : Instr) (s : State) :
    (∃ t, exec i s = .next t) ∨ ∃ b c r, i = .alloc b c ∧ segAlloc (readReg s c) s = .error r := by
  cases i with
  | alloc b c =>
    cases ha : segAlloc (readReg s c) s with
    | error r => exact .inr ⟨b, c, r, rfl, ha⟩
    | ok ht => exact .inl ⟨_, execAlloc_of_segAlloc b c s ht.2 ht.1 ha⟩
  | cmov a b c => exact .inl ((execCmov_next a b c s).elim (fun h => ⟨_, h⟩) fun h => ⟨_, h⟩)
  | aidx => exact .inl (orFault_has_next _ s _)
  | amend => exact .inl (orFault_has_next _ s _)
  | div => exact .inl (orFault_has_next _ s _)
  | aband => exact .inl (orFault_has_next _ s _)
  | out c => exact .inl (execOut_has_next c s)
  | inp c => exact .inl (execInp_has_next c s)
  | loadprog b c => exact .inl (execLoadprog_has_next b c s)
  | add => exact .inl ⟨_, rfl⟩
  | mul => exact .inl ⟨_, rfl⟩
  | nand => exact .inl ⟨_, rfl⟩
  | halt => exact .inl ⟨_, rfl⟩
  | ortho => exact .inl ⟨_, rfl⟩
  | illegal14 => exact .inl ⟨_, rfl⟩
  | illegal15 => exact .inl ⟨_, rfl⟩

/-- R81: the step of a fetch that fails. -/
theorem step_of_fetch_error (s : State) (cause : FaultCause) (hrun : s.run = .running) (hf : fetch s = .error cause) :
    step s = .next (raiseFault cause none s) := by
  rw [step_running s hrun, cycle, hf]

/-- A refusal of the instruction is the step's. -/
theorem step_of_refused (s : State) (w : Plate) (r : Refusal) (hrun : s.run = .running) (hf : fetch s = .ok w)
    (he : exec (decode w) s = .refused r) : step s = .refused r := by
  simp only [step_running s hrun, cycle, hf, execAndAdvance, he]

/-- Settles O43. -/
theorem runningMachineStepsUnlessAllocRefused : Obligations.RunningMachineStepsUnlessAllocRefused := by
  intro s hrun
  cases hf : fetch s with
  | error cause => exact .inl ⟨_, step_of_fetch_error s cause hrun hf⟩
  | ok w =>
    rcases exec_next_or_alloc_refused (decode w) s with ⟨u, he⟩ | ⟨b, c, r, hd, ha⟩
    · exact .inl ⟨_, step_of_fetch s w u hrun hf he⟩
    · refine .inr ⟨w, b, c, r, rfl, hd, step_of_refused s w r hrun hf ?_, ?_⟩
      · rw [hd]
        exact execAlloc_refused b c s r ha
      · rcases (segAlloc_error_iff _ s r).1 ha with ⟨hhost, -⟩ | ⟨-, hp, hfull, -⟩
        · exact .inl hhost
        · exact .inr ⟨hp, hfull⟩

/-! ### The loader's words (R52) -/

theorem plateOfBytes_toNat (b0 b1 b2 b3 : Byte) :
    (plateOfBytes b0 b1 b2 b3).toNat = b0.toNat * 2 ^ 24 + b1.toNat * 2 ^ 16 + b2.toNat * 2 ^ 8 + b3.toNat := by
  have := b0.isLt; have := b1.isLt; have := b2.isLt; have := b3.isLt
  rw [plateOfBytes, BitVec.toNat_ofNat, Nat.mod_eq_of_lt] <;> omega

theorem platesOfBytes_cons (b0 b1 b2 b3 : Byte) {rest : List Byte} {ps : List Plate}
    (h : platesOfBytes rest = .ok ps) :
    platesOfBytes (b0 :: b1 :: b2 :: b3 :: rest) = .ok (plateOfBytes b0 b1 b2 b3 :: ps) := by
  rw [platesOfBytes, h]

theorem platesOfBytes_partial : ∀ bytes : List Byte, bytes.length % 4 ≠ 0 →
    platesOfBytes bytes = .error .trailingPartialWord
  | [], h => absurd rfl h
  | [_], _ => rfl
  | [_, _], _ => rfl
  | [_, _, _], _ => rfl
  | b0 :: b1 :: b2 :: b3 :: rest, h => by
    have hrest := platesOfBytes_partial rest fun hr => h ((Nat.add_mod_right rest.length 4).trans hr)
    rw [platesOfBytes, hrest]

/-- R52: whole words are all read. -/
theorem platesOfBytes_whole : ∀ bytes : List Byte, bytes.length % 4 = 0 →
    ∃ image, platesOfBytes bytes = .ok image ∧ 4 * image.length = bytes.length
  | [], _ => ⟨[], rfl, rfl⟩
  | [_], h => nomatch h
  | [_, _], h => nomatch h
  | [_, _, _], h => nomatch h
  | b0 :: b1 :: b2 :: b3 :: rest, h => by
    obtain ⟨image, himage, hlen⟩ := platesOfBytes_whole rest ((Nat.add_mod_right rest.length 4).symm.trans h)
    refine ⟨_, platesOfBytes_cons b0 b1 b2 b3 himage, ?_⟩
    simp only [List.length_cons]
    omega

/-- R52: word `k` of the image is made of the bytes from `4k` on. -/
theorem platesOfBytes_getElem? (bytes : List Byte) (k : Nat) (image : List Plate) (w : Plate) (b0 b1 b2 b3 : Byte)
    (himage : platesOfBytes bytes = .ok image) (hw : image[k]? = some w) (h0 : bytes[4 * k]? = some b0)
    (h1 : bytes[4 * k + 1]? = some b1) (h2 : bytes[4 * k + 2]? = some b2) (h3 : bytes[4 * k + 3]? = some b3) :
    w = plateOfBytes b0 b1 b2 b3 := by
  induction bytes using platesOfBytes.induct generalizing k image with
  | case2 c0 c1 c2 c3 rest ps hps ih =>
    cases (platesOfBytes_cons c0 c1 c2 c3 hps).symm.trans himage
    cases k with
    | zero => cases hw; cases h0; cases h1; cases h2; cases h3; rfl
    | succ k => exact ih k ps hps hw h0 h1 h2 h3
  | case3 c0 c1 c2 c3 rest e he => rw [platesOfBytes, he] at himage; cases himage
  | case1 => cases h0
  | case4 | case5 | case6 => cases himage

theorem bootFromBytes_of_loaded {bytes : List Byte} {image : List Plate} (h : loadImage bytes = .ok image) (env : Env) :
    bootFromBytes bytes env = .ok (State.resetWith image env) := by
  rw [bootFromBytes, h]

theorem bootFromBytes_of_error {bytes : List Byte} {e : LoadError} (h : loadImage bytes = .error e) (env : Env) :
    bootFromBytes bytes env = .error e := by
  rw [bootFromBytes, h]

/-- Settles O45. -/
theorem loaderAssemblesBigEndianWords : Obligations.LoaderAssemblesBigEndianWords := by
  refine fun bytes => ⟨fun hpartial => ?_, fun hwhole hbound => ?_⟩
  · have hload : loadImage bytes = .error .trailingPartialWord := by rw [loadImage, platesOfBytes_partial bytes hpartial]
    exact ⟨hload, bootFromBytes_of_error hload⟩
  · obtain ⟨image, himage, hlen⟩ := platesOfBytes_whole bytes hwhole
    have hload : loadImage bytes = .ok image := by
      rw [loadImage, himage]
      exact if_pos (decide_eq_true (by omega))
    refine ⟨image, hload, hlen, bootFromBytes_of_loaded hload, fun k w b0 b1 b2 b3 hw h0 h1 h2 h3 => ?_⟩
    rw [platesOfBytes_getElem? bytes k image w b0 b1 b2 b3 himage hw h0 h1 h2 h3]
    exact plateOfBytes_toNat b0 b1 b2 b3
end Sys2Proof.Machine

/-! The statements of spec/30_encoding.md: the fields as bit ranges (R62 to R64), the bits a decoder ignores (R68, R69) and
the round trips of the canonical encoding (R75). -/

namespace Sys2Proof.Laws

open Sys2Proof.Machine

/-! ### Decoding an encoded instruction (R75) -/

/-- R73: the family EncodeMatchesRow, for every instruction. -/
theorem opcodeField_encode (i : Instr) : opcodeField (encode i) = rowOpcode i := by
  cases i with
  | cmov a b c => exact EncodeMatchesRow.cmov a b c
  | aidx a b c => exact EncodeMatchesRow.aidx a b c
  | amend a b c => exact EncodeMatchesRow.amend a b c
  | add a b c => exact EncodeMatchesRow.add a b c
  | mul a b c => exact EncodeMatchesRow.mul a b c
  | div a b c => exact EncodeMatchesRow.div a b c
  | nand a b c => exact EncodeMatchesRow.nand a b c
  | halt => exact EncodeMatchesRow.halt
  | alloc b c => exact EncodeMatchesRow.alloc b c
  | aband c => exact EncodeMatchesRow.aband c
  | out c => exact EncodeMatchesRow.out c
  | inp c => exact EncodeMatchesRow.inp c
  | loadprog b c => exact EncodeMatchesRow.loadprog b c
  | ortho t imm => exact EncodeMatchesRow.ortho t imm
  | illegal14 rest => exact EncodeMatchesRow.illegal14 rest
  | illegal15 rest => exact EncodeMatchesRow.illegal15 rest

theorem decode_encode_eq_decodeAs_row (i : Instr) : decode (encode i) = decodeAs (rowOpcode i).toNat (encode i) :=
  decode_of_opcode _ _ (congrArg BitVec.toNat (opcodeField_encode i))

/-- Settles O1: the opcode selects the instruction's own row, and each field of the word is the operand put there. -/
theorem decodeOfEncodeGivesInstructionBack : Obligations.DecodeOfEncodeGivesInstructionBack := by
  intro i
  rw [decode_encode_eq_decodeAs_row]
  cases i with
  | cmov a b c | aidx a b c | amend a b c | add a b c | mul a b c | div a b c | nand a b c =>
    simp [rowOpcode, encode, decodeAs, fieldA_encodeS, fieldB_encodeS, fieldC_encodeS]
  | halt => rfl
  | alloc b c | loadprog b c => simp [rowOpcode, encode, decodeAs, fieldB_encodeS, fieldC_encodeS]
  | aband c | out c | inp c => simp [rowOpcode, encode, decodeAs, fieldC_encodeS]
  | ortho t imm => simp [rowOpcode, encode, decodeAs, fieldT_encodeL, fieldImm_encodeL]
  | illegal14 rest | illegal15 rest => simp [rowOpcode, encode, decodeAs, fieldRest_encodeIllegal]

/-! ### Encoding a decoded word (R75) -/

section
variable {w : Plate} {op : BitVec 4}

/-- A word is the format-S word of its own opcode and three operands exactly when they fill its other 28 bits. -/
theorem encodeS_eq_iff (hop : (opcodeField w).toNat = op.toNat) (a b c : RegIdx) :
    encodeS op a b c = w ↔ w.toNat % 268435456 = a.toNat * 64 + b.toNat * 8 + c.toNat := by
  rw [← BitVec.toNat_inj, encodeS_toNat, ← hop, opcodeField_toNat]
  omega

theorem encodeS_fieldsABC_eq_iff (hop : (opcodeField w).toNat = op.toNat) :
    encodeS op (fieldA w) (fieldB w) (fieldC w) = w ↔ w.toNat % 268435456 < 512 := by
  rw [encodeS_eq_iff hop, fieldA_toNat, fieldB_toNat, fieldC_toNat]
  omega

theorem encodeS_fieldsBC_eq_iff (hop : (opcodeField w).toNat = op.toNat) :
    encodeS op 0 (fieldB w) (fieldC w) = w ↔ w.toNat % 268435456 < 64 := by
  rw [encodeS_eq_iff hop, show (0 : RegIdx).toNat = 0 from rfl, fieldB_toNat, fieldC_toNat]
  omega

theorem encodeS_fieldC_eq_iff (hop : (opcodeField w).toNat = op.toNat) :
    encodeS op 0 0 (fieldC w) = w ↔ w.toNat % 268435456 < 8 := by
  rw [encodeS_eq_iff hop, show (0 : RegIdx).toNat = 0 from rfl, fieldC_toNat]
  omega

theorem encodeS_noFields_eq_iff (hop : (opcodeField w).toNat = op.toNat) :
    encodeS op 0 0 0 = w ↔ w.toNat % 268435456 = 0 :=
  encodeS_eq_iff hop 0 0 0

theorem encodeL_fields (hop : (opcodeField w).toNat = 13) : encodeL (fieldT w) (fieldImm w) = w := by
  apply BitVec.eq_of_toNat_eq
  rw [opcodeField_toNat] at hop
  rw [encodeL_toNat, fieldT_toNat, fieldImm_toNat]
  omega

end

/-- R70: `encode_decode_illegal` for the row of an opcode. -/
theorem encode_decodeAs_illegal {w : Plate} {n : Nat} (hop : (opcodeField w).toNat = n)
    (h : (decodeAs n w).wellFormed = false) : encode (decodeAs n w) = w := by
  subst hop
  exact encode_decode_illegal w h

/-- Settles O2: for each opcode, the fields its instruction uses make up the word exactly when the other bits are 0. -/
theorem encodeOfDecodeIffCanonical : Obligations.EncodeOfDecodeIffCanonical := by
  intro w
  rcases opcode_cases w with e | e | e | e | e | e | e | e | e | e | e | e | e | e | e | e <;>
    simp only [decode_of_opcode w _ e, isCanonical, e, decide_eq_true_eq]
  exacts [
    encodeS_fieldsABC_eq_iff e,
    encodeS_fieldsABC_eq_iff e,
    encodeS_fieldsABC_eq_iff e,
    encodeS_fieldsABC_eq_iff e,
    encodeS_fieldsABC_eq_iff e,
    encodeS_fieldsABC_eq_iff e,
    encodeS_fieldsABC_eq_iff e,
    encodeS_noFields_eq_iff e,
    encodeS_fieldsBC_eq_iff e,
    encodeS_fieldC_eq_iff e,
    encodeS_fieldC_eq_iff e,
    encodeS_fieldC_eq_iff e,
    encodeS_fieldsBC_eq_iff e,
    iff_of_true (encodeL_fields e) trivial,
    iff_of_true (encode_decodeAs_illegal e rfl) trivial,
    iff_of_true (encode_decodeAs_illegal e rfl) trivial]

/-! ### The bits a decoder ignores (R68, R69) -/

theorem decode_congr {v w : Plate} {n : Nat} (hop : opcodeField v = opcodeField w) (hn : (opcodeField w).toNat = n)
    (h : decodeAs n v = decodeAs n w) : decode v = decode w := by
  rw [decode_of_opcode v n (hop ▸ hn), decode_of_opcode w n hn, h]

/-- R62: the operand fields of format S lie in the low nine bits. -/
theorem fields_eq_of_low_nine_bits {v w : Plate} (h : v.toNat % 512 = w.toNat % 512) :
    fieldA v = fieldA w ∧ fieldB v = fieldB w ∧ fieldC v = fieldC w := by
  simp only [← BitVec.toNat_inj, fieldA_toNat, fieldB_toNat, fieldC_toNat]
  omega

/-- R65: a format-S row is selected from A, B and C alone. -/
theorem decodeAs_congr_formatS {n : Nat} {v w : Plate} (hn : n ≤ 12) (hA : fieldA v = fieldA w)
    (hB : fieldB v = fieldB w) (hC : fieldC v = fieldC w) : decodeAs n v = decodeAs n w := by
  interval_cases n <;> simp only [decodeAs, hA, hB, hC]

/-- Settles O3. -/
theorem formatSDependsOnOpcodeAndLowNineBits : Obligations.FormatSDependsOnOpcodeAndLowNineBits := by
  intro w v hle hop hlow
  obtain ⟨hA, hB, hC⟩ := fields_eq_of_low_nine_bits hlow
  exact decode_congr hop rfl (decodeAs_congr_formatS hle hA hB hC)

/-- Settles O4: the row of each of these opcodes names only the fields assumed equal. -/
theorem unusedOperandFieldsIgnored : Obligations.UnusedOperandFieldsIgnored := by
  refine fun w v hop => ⟨fun hhalt => decode_congr hop hhalt rfl, fun hBC hB hC => ?_, fun hC' hC => ?_⟩
  · rcases hBC with halloc | hloadprog
    · exact decode_congr hop halloc (congrArg₂ Instr.alloc hB hC)
    · exact decode_congr hop hloadprog (congrArg₂ Instr.loadprog hB hC)
  · rcases hC' with haband | hout | hinp
    · exact decode_congr hop haband (congrArg Instr.aband hC)
    · exact decode_congr hop hout (congrArg Instr.out hC)
    · exact decode_congr hop hinp (congrArg Instr.inp hC)

/-! ### Fields and words (R62 to R64, R73) -/

/-- Settles O5: the numbers of the fields, with the powers of two written out. -/
theorem fieldsAreBitRanges : Obligations.FieldsAreBitRanges := fun w =>
  ⟨opcodeField_toNat w, fieldA_toNat w, fieldB_toNat w, fieldC_toNat w, fieldT_toNat w, fieldImm_toNat w⟩

/-- Settles O6: the decoder evaluated on seven literal words. -/
theorem wordsOfEveryFamilyDecode : Obligations.WordsOfEveryFamilyDecode := by
  unfold Obligations.WordsOfEveryFamilyDecode
  decide

end Sys2Proof.Laws

/-! The statements of spec/40_cycle.md: the fetch bound (R81), the decode error (R82, R136), and the execution of the
decoded instruction followed by the sequencer's write of `pc` (R80, R83, R84). Each is read off an equation for the one
step (`step_of_fetch`, `step_of_fetch_error`, `step_of_illegal`) and off what `advance` does to `pc` (`advance_pc`). -/

namespace Sys2Proof.Machine

open Sys2Proof.Laws

/-! ### Fault entry (R134) -/

theorem onlyFaulted_raiseFault (cause : FaultCause) (word : Option Plate) (s : State) :
    OnlyFaulted cause word s (raiseFault cause word s) :=
  ⟨rfl, rfl, fun _ => rfl, rfl, rfl, fun _ _ => rfl, rfl, rfl, rfl⟩

/-! ### Fetch (R81) -/

theorem fetch_beyond_length {s : State} (h : s.mem.len 0 ≤ s.pc.toNat) : fetch s = .error ⟨.oobPc, .pc s.pc⟩ :=
  if_pos h

/-- Settles O33. -/
theorem fetchBeyondProgramFaults : Obligations.FetchBeyondProgramFaults := fun s hrun =>
  ⟨fun hlt => (fetch_ok_iff s _).2 ⟨hlt, rfl⟩, fun hge =>
    ⟨_, step_of_fetch_error s _ hrun (fetch_beyond_length hge), onlyFaulted_raiseFault _ _ s⟩⟩

/-! ### The decode error (R70, R82, R136) -/

theorem decodeAs_wellFormed_eq_false_iff (n : Nat) (w : Plate) : (decodeAs n w).wellFormed = false ↔ 14 ≤ n := by
  rcases Nat.lt_or_ge n 14 with hlegal | hillegal
  · have hwf : (decodeAs n w).wellFormed = true := by interval_cases n <;> rfl
    simp [hwf, hlegal]
  · refine iff_of_true ?_ hillegal
    obtain ⟨k, rfl⟩ := Nat.exists_eq_add_of_le' hillegal
    cases k with
    | zero => rfl
    | succ k => rfl

/-- R70: an instruction that is not well-formed takes the DecodeError fault with its own word. -/
theorem exec_of_not_wellFormed {i : Instr} (h : i.wellFormed = false) (s : State) :
    exec i s = .next (raiseDecodeError (encode i) s) := by
  cases i with
  | illegal14 rest | illegal15 rest => rfl
  | _ => exact nomatch h

/-- R82: the cycle of an illegal word. -/
theorem step_of_illegal {s : State} {w : Plate} (hrun : s.run = .running) (hf : fetch s = .ok w)
    (h : (decode w).wellFormed = false) : step s = .next (raiseDecodeError w s) := by
  have he := exec_of_not_wellFormed h s
  rw [encode_decode_illegal w h] at he
  rw [step_of_fetch s w _ hrun hf he, advance_of_stopped _ _ (by rw [raiseDecodeError_run]; nofun)]

/-- Settles O34: the two illegal constructors are the rows of the opcodes from 14 on, and the word either one encodes is
the word it was decoded from. -/
theorem illegalOpcodeTakesDecodeError : Obligations.IllegalOpcodeTakesDecodeError := by
  have hdecode (w : Plate) : (decode w).wellFormed = false ↔ 14 ≤ (opcodeField w).toNat :=
    decodeAs_wellFormed_eq_false_iff _ w
  refine ⟨hdecode, fun rest s => ⟨?_, ?_⟩, fun s w hrun hf hop => ?_⟩
  · exact ⟨_, exec_of_not_wellFormed rfl s, onlyFaulted_raiseFault _ _ s⟩
  · exact ⟨_, exec_of_not_wellFormed rfl s, onlyFaulted_raiseFault _ _ s⟩
  · exact ⟨_, step_of_illegal hrun hf ((hdecode w).2 hop), onlyFaulted_raiseFault _ _ s⟩

/-! ### Execution and the advance of `pc` (R83, R84) -/

theorem advance_pc (i : Instr) (u : State) :
    (advance i u).pc = if u.run = .running ∧ i.isLoadprog = false then u.pc + 1 else u.pc := by
  by_cases hrun : u.run = .running
  · rw [advance_of_running i u hrun]
    cases hl : i.isLoadprog <;> simp [hrun]
  · rw [advance_of_stopped i u hrun, if_neg fun h => hrun h.1]

/-- Settles O32. -/
theorem stepRunsDecodedInstruction : Obligations.StepRunsDecodedInstruction := by
  rintro s w i hrun hf rfl
  exact ⟨fun u he => ⟨_, step_of_fetch s w u hrun hf he, rfl, advance_pc _ u⟩,
    fun r he => step_of_refused s w r hrun hf he, exec_no_fault _ s⟩

theorem isLoadprog_iff (i : Instr) : i.isLoadprog = true ↔ ∃ b c, i = .loadprog b c := by
  cases i <;> simp [Instr.isLoadprog]

/-- R84, R122: an instruction executed by a running machine stops it where it was, or is a LOADPROG that jumps, or goes
on with `pc` unchanged. -/
theorem exec_stops_or_jumps_or_goes_on (i : Instr) (s u : State) (he : exec i s = .next u) (hrun : s.run = .running) :
    (u.run ≠ .running ∧ u.pc = s.pc) ∨
    (u.run = .running ∧ ∃ b c, i = .loadprog b c ∧ u.pc = readReg s c) ∨
    (u.run = .running ∧ i.isLoadprog = false ∧ u.pc = s.pc) := by
  rcases exec_cases i s u he with ⟨-, cause, word, rfl, -⟩ | ⟨-, rfl⟩ | ⟨hkept, -, -, -, -, -, -, -, -, hstay, hjump, -⟩
  · exact .inl ⟨nofun, rfl⟩
  · exact .inl ⟨nofun, rfl⟩
  · cases hl : i.isLoadprog with
    | true =>
      obtain ⟨b, c, hi⟩ := (isLoadprog_iff i).1 hl
      exact .inr (.inl ⟨hkept.trans hrun, b, c, hi, hjump b c hi⟩)
    | false => exact .inr (.inr ⟨hkept.trans hrun, rfl, hstay hl⟩)

/-- R15: a fetched cell lies below the length of segment 0, which is at most 2^32 - 1. -/
theorem pc_succ_toNat_of_fetch {s : State} {w : Plate} (hwf : s.mem.wf = true) (hf : fetch s = .ok w) :
    (s.pc + 1).toNat = s.pc.toNat + 1 := by
  have hlt : s.pc.toNat < (s.mem.seg 0).len := ((fetch_ok_iff s w).1 hf).1
  have hlen : (s.mem.seg 0).len ≤ 4294967295 := ((segment_wf_iff _).1 (memory_seg_wf s.mem 0 hwf)).1
  exact BitVec.toNat_add_of_lt (by change s.pc.toNat + 1 < 4294967296; omega)

/-- Settles O35: a fetch fault holds `pc`; otherwise `exec_stops_or_jumps_or_goes_on` gives `pc` before the advance. -/
theorem nextProgramCounter : Obligations.NextProgramCounter := by
  intro s t hinv h
  obtain ⟨hrun, ⟨cause, -, rfl⟩ | ⟨w, u, hf, he, rfl⟩⟩ := step_next s t h
  · exact ⟨fun _ => rfl, nofun⟩
  · rw [advance_run, advance_pc]
    rcases exec_stops_or_jumps_or_goes_on _ s u he hrun with ⟨hstop, hpc⟩ | ⟨hgo, b, c, hd, hpc⟩ | ⟨hgo, hl, hpc⟩
    · exact ⟨fun _ => by rw [if_neg fun hgo => hstop hgo.1, hpc], fun hgo => absurd hgo hstop⟩
    · refine ⟨fun hstop => absurd hgo hstop, fun _ => ⟨w, hf, .inl ⟨b, c, hd, ?_⟩⟩⟩
      exact (if_neg (by simp [hd, Instr.isLoadprog])).trans hpc
    · refine ⟨fun hstop => absurd hgo hstop, fun _ => ⟨w, hf, .inr ⟨hl, ?_⟩⟩⟩
      rw [if_pos ⟨hgo, hl⟩, hpc]
      exact ⟨rfl, pc_succ_toNat_of_fetch hinv.memWf hf⟩

end Sys2Proof.Machine

/-! The statements of spec/41_move.md: the register moves CMOV (R90) and ORTHO (R91). The canonical word of an instruction
comes from the encoder's round trip (R75), and the increment of `pc` (R84) from the frame of a one-register instruction. -/

namespace Sys2Proof.Machine

open Sys2Proof.Laws

/-! ### Canonical words and one-register frames -/

/-- R75: by the round trip, the number of the encoded word is all there is to check. -/
theorem canonicalWord_of_encode_toNat {i : Instr} {n : Nat} (h : (encode i).toNat = n) : CanonicalWord i n := by
  refine ⟨h, ?_⟩
  rw [← h, BitVec.ofNat_toNat, BitVec.setWidth_eq]
  exact decodeOfEncodeGivesInstructionBack i

theorem onlyReg_refl (i : RegIdx) (s : State) : OnlyReg i s s :=
  ⟨fun _ _ => rfl, rfl, ⟨rfl, rfl⟩, rfl, fun _ _ => rfl, rfl, rfl, rfl⟩

theorem onlyReg_writeReg (i : RegIdx) (v : Plate) (s : State) : OnlyReg i s (writeReg i v s) :=
  ⟨fun r hr => readReg_writeReg_other s i r v hr, rfl, ⟨rfl, rfl⟩, rfl, fun _ _ => rfl, rfl, rfl, rfl⟩

/-- R84: an instruction that changes nothing but one register is followed by the increment. -/
theorem OnlyReg.stepAdvances {r : RegIdx} {i : Instr} {s t : State} (h : OnlyReg r s t) (he : exec i s = .next t)
    (hl : i.isLoadprog = false) : StepAdvances i s t := by
  obtain ⟨-, hpc, ⟨hrun, -⟩, -⟩ := h
  exact stepAdvances_of_exec i s t he hrun hpc hl

/-! ### CMOV (R90) -/

theorem execCmov_of_zero (a b : RegIdx) {c : RegIdx} {s : State} (h : readReg s c = 0) : execCmov a b c s = .next s :=
  if_pos ((isZero_iff _).2 h)

theorem execCmov_of_ne_zero (a b : RegIdx) {c : RegIdx} {s : State} (h : readReg s c ≠ 0) :
    execCmov a b c s = .next (writeReg a (readReg s b) s) :=
  if_neg fun hz => h ((isZero_iff _).1 hz)

theorem execCmov_moves_iff_ne_zero (a b c : RegIdx) (s : State) :
    ∃ t, execCmov a b c s = .next t ∧
      readReg t a = (if (readReg s c).toNat ≠ 0 then readReg s b else readReg s a) ∧ OnlyReg a s t := by
  by_cases hzero : readReg s c = 0
  · exact ⟨s, execCmov_of_zero a b hzero, by simp [hzero], onlyReg_refl a s⟩
  · have hne : (readReg s c).toNat ≠ 0 := BitVec.toNat_ne.1 hzero
    exact ⟨_, execCmov_of_ne_zero a b hzero, by rw [if_pos hne, readReg_writeReg_same], onlyReg_writeReg a _ s⟩

theorem encode_cmov_toNat (a b c : RegIdx) :
    (encode (.cmov a b c)).toNat = a.toNat * 64 + b.toNat * 8 + c.toNat := by
  rw [encode, encodeS_toNat, show (0 : BitVec 4).toNat = 0 from rfl, Nat.zero_mul, Nat.zero_add]

/-- Settles O7: the meaning by the two values of the condition, the frame and the increment by the one-register rules. -/
theorem cmovMovesWhenConditionNonzero : Obligations.CmovMovesWhenConditionNonzero := by
  intro a b c s
  obtain ⟨t, hexec, hread, honly⟩ := execCmov_moves_iff_ne_zero a b c s
  exact ⟨canonicalWord_of_encode_toNat (encode_cmov_toNat a b c), fun w hop => decode_of_opcode w 0 hop,
    t, hexec, hread, honly, honly.stepAdvances hexec rfl⟩

/-! ### ORTHO (R91) -/

/-- R67: widening the immediate keeps its number. -/
theorem immediate_toNat (imm : Imm) : (immediate imm).toNat = imm.toNat :=
  BitVec.toNat_setWidth_of_le (by decide)

/-- Settles O8: one write of the widened immediate. -/
theorem orthoLoadsZeroExtendedImmediate : Obligations.OrthoLoadsZeroExtendedImmediate := by
  intro r imm s
  have hexec : exec (.ortho r imm) s = .next (writeReg r (immediate imm) s) := rfl
  have honly := onlyReg_writeReg r (immediate imm) s
  exact ⟨canonicalWord_of_encode_toNat (encodeL_toNat r imm), fun w hop => decode_of_opcode w 13 hop,
    _, hexec, by rw [readReg_writeReg_same, immediate_toNat], honly, honly.stepAdvances hexec rfl⟩

end Sys2Proof.Machine

/-! The statements of spec/42_arith.md: the four functions of the arithmetic unit (R99, R100) and the instructions ADD,
MUL, DIV and NAND (R95 to R98). Each function is first tied to the operation of `BitVec` it computes; each instruction
is then one write of its function's value, or, for DIV by zero, the fault entry. -/

namespace Sys2Proof.Machine

open Sys2Proof.Laws

/-! ### The functions of the arithmetic unit (R99) -/

theorem aluAdd_eq_add (a b : Plate) : aluAdd a b = a + b := BitVec.eq_of_toNat_eq rfl

theorem aluMul_eq_mul (a b : Plate) : aluMul a b = a * b := BitVec.eq_of_toNat_eq rfl

theorem aluAdd_toNat (a b : Plate) : (aluAdd a b).toNat = (a.toNat + b.toNat) % 2 ^ 32 := BitVec.toNat_ofNat _ _

theorem aluMul_toNat (a b : Plate) : (aluMul a b).toNat = a.toNat * b.toNat % 2 ^ 32 := BitVec.toNat_ofNat _ _

theorem aluDiv_zero (a : Plate) : aluDiv a 0 = .error ⟨.divideByZero, .absent⟩ := rfl

theorem aluDiv_of_ne_zero (a : Plate) {b : Plate} (h : b ≠ 0) : aluDiv a b = .ok (a / b) := by
  rw [aluDiv, (isZero_false_iff b).2 h, if_neg Bool.false_ne_true, BitVec.udiv_def]

theorem aluNand_toNat (a b : Plate) : (aluNand a b).toNat = 2 ^ 32 - 1 - (a &&& b).toNat := BitVec.toNat_not

theorem aluNand_getElem (a b : Plate) (k : Fin 32) : (aluNand a b)[k] = !(a[k] && b[k]) := by
  simp [aluNand]

/-- Settles O9. -/
theorem arithmeticUnitFunctions : Obligations.ArithmeticUnitFunctions := fun a b =>
  ⟨aluAdd_toNat a b, aluMul_toNat a b, fun hb => ⟨a / b, aluDiv_of_ne_zero a hb, BitVec.toNat_udiv⟩,
    aluDiv_zero a, aluNand_toNat a b⟩

/-! ### Consequences (R100) -/

theorem aluDiv_ok_le {a b q : Plate} (h : aluDiv a b = .ok q) : q.toNat ≤ a.toNat := by
  by_cases hb : b = 0
  · rw [hb, aluDiv_zero] at h
    cases h
  · rw [aluDiv_of_ne_zero a hb] at h
    cases h
    exact BitVec.toNat_udiv.trans_le (Nat.div_le_self _ _)

theorem aluAdd_allOnes (a : Plate) : aluAdd a 0xFFFFFFFF = a - 1 :=
  (aluAdd_eq_add a _).trans (BitVec.sub_eq_add_neg a 1).symm

theorem aluNand_self (a : Plate) : aluNand a a = ~~~a := congrArg (~~~·) BitVec.and_self

/-- Settles O10: the ring laws are those of the operations of `BitVec`. -/
theorem arithmeticUnitLaws : Obligations.ArithmeticUnitLaws := by
  intro a b c
  simp only [aluAdd_eq_add, aluMul_eq_mul]
  exact ⟨BitVec.add_comm a b, BitVec.add_assoc a b c, BitVec.mul_comm a b, BitVec.mul_assoc a b c, BitVec.mul_add,
    fun _ hq => aluDiv_ok_le hq, aluAdd_allOnes a, aluNand_self a⟩

/-! ### Instructions that write one register or take a fault -/

/-- R12, R84: an instruction whose whole meaning is one register write leaves the value there, has the frame of a
one-register instruction and is followed by the increment. -/
theorem exec_writeReg_next {i : Instr} {a : RegIdx} {v : Plate} {s : State}
    (he : exec i s = .next (writeReg a v s)) (hl : i.isLoadprog = false) :
    ∃ t, exec i s = .next t ∧ readReg t a = v ∧ OnlyReg a s t ∧ StepAdvances i s t :=
  have honly := onlyReg_writeReg a v s
  ⟨_, he, readReg_writeReg_same s a v, honly, honly.stepAdvances he hl⟩

theorem faultedInExecute_raiseInExecute (cause : FaultCause) (s : State) :
    FaultedInExecute cause s (raiseInExecute cause s) :=
  ⟨onlyFaulted_raiseFault cause _ s, currentWord_of_fetch s⟩

/-! ### ADD (R95) and MUL (R96) -/

/-- Settles O11. -/
theorem addWrapsModulo : Obligations.AddWrapsModulo := by
  intro a b c s
  obtain ⟨t, hexec, hread, hframe⟩ := exec_writeReg_next (i := .add a b c) (s := s) rfl rfl
  exact ⟨canonicalWord_of_encode_toNat (encodeS_toNat 3 a b c), fun w hop => decode_of_opcode w 3 hop,
    t, hexec, by rw [hread, aluAdd_toNat], hframe⟩

/-- Settles O12. -/
theorem mulKeepsLowHalf : Obligations.MulKeepsLowHalf := by
  intro a b c s
  obtain ⟨t, hexec, hread, hframe⟩ := exec_writeReg_next (i := .mul a b c) (s := s) rfl rfl
  exact ⟨canonicalWord_of_encode_toNat (encodeS_toNat 4 a b c), fun w hop => decode_of_opcode w 4 hop,
    t, hexec, by rw [hread, aluMul_toNat], hframe⟩

/-! ### DIV (R97) -/

theorem exec_div_of_zero (a b : RegIdx) {c : RegIdx} {s : State} (h : readReg s c = 0) :
    exec (.div a b c) s = .next (raiseInExecute ⟨.divideByZero, .absent⟩ s) := by
  rw [exec, execDiv, h, aluDiv_zero, orFault]

theorem exec_div_of_ne_zero (a b : RegIdx) {c : RegIdx} {s : State} (h : readReg s c ≠ 0) :
    exec (.div a b c) s = .next (writeReg a (readReg s b / readReg s c) s) := by
  rw [exec, execDiv, aluDiv_of_ne_zero _ h, orFault]

/-- Settles O13: the meaning by the two values of the divisor. -/
theorem divFloorsOrFaultsOnZero : Obligations.DivFloorsOrFaultsOnZero := by
  intro a b c s
  refine ⟨canonicalWord_of_encode_toNat (encodeS_toNat 5 a b c), fun w hop => decode_of_opcode w 5 hop,
    fun hne => ?_, fun hzero => ⟨_, exec_div_of_zero a b hzero, faultedInExecute_raiseInExecute _ s⟩⟩
  obtain ⟨t, hexec, hread, hframe⟩ := exec_writeReg_next (exec_div_of_ne_zero a b hne) rfl
  exact ⟨t, hexec, by rw [hread, BitVec.toNat_udiv], hframe⟩

/-! ### NAND (R98) -/

/-- Settles O14. -/
theorem nandInvertsEveryBitOfAnd : Obligations.NandInvertsEveryBitOfAnd := by
  intro a b c s
  obtain ⟨t, hexec, hread, hframe⟩ := exec_writeReg_next (i := .nand a b c) (s := s) rfl rfl
  exact ⟨canonicalWord_of_encode_toNat (encodeS_toNat 6 a b c), fun w hop => decode_of_opcode w 6 hop,
    t, hexec, fun k => by rw [hread, aluNand_getElem], hframe⟩

end Sys2Proof.Machine

/-! The statements of spec/43_array.md: AIDX (R105), AMEND (R106), ALLOC (R107) and ABAND (R108). Each is one transaction
of the segment store. On an error the instruction takes the fault entry (`exec_faults_of_error`); otherwise AIDX writes
one register, AMEND and ABAND replace the store and nothing else, and ALLOC does both. -/

namespace Sys2Proof.Machine

open Sys2Proof.Laws

/-! ### Instructions of one transaction -/

/-- R134: an instruction whose transaction answers an error takes that fault. -/
theorem exec_faults_of_error {α : Type} {i : Instr} {answer : Except FaultCause α} {cause : FaultCause} {s : State}
    {k : α → State} (hi : exec i s = orFault answer s k) (he : answer = .error cause) :
    ∃ t, exec i s = .next t ∧ FaultedInExecute cause s t := by
  rw [he] at hi
  exact ⟨_, hi, faultedInExecute_raiseInExecute cause s⟩

/-- An instruction whose transaction is answered goes on with the answer. -/
theorem exec_next_of_ok {α : Type} {i : Instr} {answer : Except FaultCause α} {v : α} {s : State} {k : α → State}
    (hi : exec i s = orFault answer s k) (hv : answer = .ok v) : exec i s = .next (k v) := by
  rw [hi, hv, orFault]

theorem sameOutsideMemory_setMem (m : Memory) (s : State) : SameOutsideMemory s (setMem m s) :=
  ⟨fun _ => rfl, rfl, ⟨rfl, rfl⟩, rfl, rfl, rfl⟩

/-- R84: an instruction that changes nothing but the segment store is followed by the increment. -/
theorem SameOutsideMemory.stepAdvances {i : Instr} {s t : State} (h : SameOutsideMemory s t) (he : exec i s = .next t)
    (hl : i.isLoadprog = false) : StepAdvances i s t := by
  obtain ⟨-, hpc, ⟨hrun, -⟩, -⟩ := h
  exact stepAdvances_of_exec i s t he hrun hpc hl

/-! ### AIDX (R105) -/

theorem exec_aidx (a b c : RegIdx) (s : State) :
    exec (.aidx a b c) s = orFault (memRead s.mem (readReg s b) (readReg s c)) s (fun v => writeReg a v s) := rfl

/-- Settles O15: by the three answers of the read. -/
theorem aidxLoadsCellOrFaults : Obligations.AidxLoadsCellOrFaults := by
  intro a b c s
  have hexec := exec_aidx a b c s
  refine ⟨canonicalWord_of_encode_toNat (encodeS_toNat 1 a b c), fun w hop => decode_of_opcode w 1 hop,
    fun ha hj => ?_, fun ha => exec_faults_of_error hexec (memRead_not_allocated ha),
    fun ha hj => exec_faults_of_error hexec (memRead_beyond_length ha hj)⟩
  have hnext := exec_next_of_ok hexec (memRead_eq_ok s.mem _ _ ha hj)
  exact exec_writeReg_next hnext rfl

/-! ### AMEND (R106) -/

theorem exec_amend (a b c : RegIdx) (s : State) :
    exec (.amend a b c) s =
      orFault (memWrite s.mem (readReg s a) (readReg s b) (readReg s c)) s (fun m => setMem m s) := rfl

/-- Settles O16: by the three answers of the write; which cells a write changes is `memWriteChangesExactlyOneCell`. -/
theorem amendStoresOneCellOrFaults : Obligations.AmendStoresOneCellOrFaults := by
  intro a b c s hwf
  have hexec := exec_amend a b c s
  refine ⟨canonicalWord_of_encode_toNat (encodeS_toNat 2 a b c), fun w hop => decode_of_opcode w 2 hop,
    fun ha hj => ?_, fun ha => exec_faults_of_error hexec (memWrite_not_allocated ha),
    fun ha hj => exec_faults_of_error hexec (memWrite_beyond_length ha hj)⟩
  obtain ⟨-, -, hwrite⟩ := memWriteChangesExactlyOneCell s.mem (readReg s a) (readReg s b) (readReg s c) hwf
  obtain ⟨m, hw, hsame, hother, hlen, htable, hpool, -⟩ := hwrite ha hj
  have hnext := exec_next_of_ok hexec hw
  have hout := sameOutsideMemory_setMem m s
  exact ⟨_, hnext, hsame, hother, hlen, htable, hpool, hout, hout.stepAdvances hnext rfl⟩

/-! ### ABAND (R108) -/

theorem exec_aband (c : RegIdx) (s : State) :
    exec (.aband c) s = orFault (segAbandon s.mem (readReg s c)) s (fun m => setMem m s) := rfl

theorem encode_aband_toNat (c : RegIdx) : (encode (.aband c)).toNat = 9 * 268435456 + c.toNat :=
  encodeS_toNat 9 0 0 c

/-- R42, D8: handle 0, a handle never allocated and a handle already abandoned. -/
theorem segAbandon_error_of {m : Memory} {h : Plate} (hbad : h = 0 ∨ m.tableSize ≤ h.toNat ∨ h ∈ m.pool) :
    segAbandon m h = .error ⟨.oobSegment, .handle h⟩ := by
  rcases hbad with hzero | hnever | hpool
  · exact if_pos hzero
  · exact segAbandon_not_allocated ((memory_not_allocated_iff m h).2 fun ha => hnever.not_gt ha.1)
  · exact segAbandon_not_allocated (not_allocated_of_mem_pool hpool)

/-- Settles O19. -/
theorem abandReleasesHandleOrFaults : Obligations.AbandReleasesHandleOrFaults := by
  intro c s
  have hexec := exec_aband c s
  refine ⟨canonicalWord_of_encode_toNat (encode_aband_toNat c), fun w hop => decode_of_opcode w 9 hop,
    fun hne hlt hpool => ?_, fun hbad => exec_faults_of_error hexec (segAbandon_error_of hbad)⟩
  obtain ⟨m, hq, hadded, hreleased, htable, hother⟩ :=
    segAbandon_facts s.mem (readReg s c) hne ((memory_allocated_iff ..).2 ⟨hlt, hpool⟩)
  have hnext := exec_next_of_ok hexec hq
  have hout := sameOutsideMemory_setMem m s
  exact ⟨_, hnext, hadded, hreleased, htable, hother, hout, hout.stepAdvances hnext rfl⟩

/-! ### ALLOC (R107) -/

/-- R40, R41: from `m` to `m'` the handle `h` was given out with a segment of `len` zeros, and nothing else changed. -/
structure GivesOut (m m' : Memory) (h len : Plate) : Prop where
  ne_zero : h ≠ 0
  before : m.allocated h = false
  after : m'.allocated h = true
  len_eq : m'.len h = len.toNat
  zeros : ∀ j : Plate, j.toNat < len.toNat → memRead m' h j = .ok 0
  grows : m.pool = [] → h.toNat = m.tableSize ∧ m'.tableSize = m.tableSize + 1 ∧ m'.pool = []
  reuses : m.pool ≠ [] → h ∈ m.pool ∧ m'.tableSize = m.tableSize ∧ ∀ k, k ∈ m'.pool ↔ k ∈ m.pool ∧ k ≠ h
  other_cells : ∀ k j, k ≠ h → memRead m' k j = memRead m k j
  other_lens : ∀ k, k ≠ h → m'.len k = m.len k

theorem givesOut_reuse {m : Memory} {h : Plate} (len : Plate) (hwf : m.wf = true) (hh : h ∈ m.pool) :
    GivesOut m (m.reuse h len) h len := by
  obtain ⟨hne, hbefore, hafter, hlen, hzeros, htable, hpool, hcells, hlens⟩ := memory_reuse_facts m h len hwf hh
  exact ⟨hne, hbefore, hafter, hlen, hzeros, fun hnil => absurd hnil (List.ne_nil_of_mem hh),
    fun _ => ⟨hh, htable, hpool⟩, hcells, hlens⟩

theorem givesOut_grow {m : Memory} (len : Plate) (hwf : m.wf = true) (hsize : m.tableSize < plateCount)
    (hnil : m.pool = []) : GivesOut m (m.grow len) m.newHandle len := by
  obtain ⟨hnum, hne, hbefore, hnew, hlen, htable, hcells, hlens⟩ := memory_grow_facts m len hwf hsize
  obtain ⟨hafter, hzeros⟩ := hnew hnil
  exact ⟨hne, hbefore, hafter, hlen, hzeros, fun _ => ⟨hnum, htable, hnil⟩, fun hp => absurd hnil hp, hcells, hlens⟩

/-- R40: in a reachable state a transaction that answers a handle gives it out, whichever of its two branches it took. -/
theorem segAlloc_givesOut {len h : Plate} {s u : State} (hinv : StateInv s) (ha : segAlloc len s = .ok (h, u)) :
    GivesOut s.mem u.mem h len := by
  rcases segAlloc_ok len h s u ha with ⟨first, others, hpool, rfl, rfl⟩ | ⟨hnil, hroom, rfl, rfl⟩
  · exact givesOut_reuse len hinv.memWf (hpool ▸ poolMember_mem s.env first others)
  · exact givesOut_grow len hinv.memWf (hroom.trans_le hinv.maxTableFits) hnil

/-- R40, R54: the transaction changes only the segment store and the environment's answers to allocations. -/
theorem segAlloc_frame {len h : Plate} {s u : State} (ha : segAlloc len s = .ok (h, u)) :
    SameRegs s u ∧ u.pc = s.pc ∧ SameControl s u ∧ u.out = s.out ∧ u.inPos = s.inPos ∧ SameArguments s u ∧
      u.env.ioErrors = s.env.ioErrors := by
  rcases segAlloc_ok len h s u ha with ⟨_, _, -, -, rfl⟩ | ⟨-, -, -, rfl⟩ <;>
    exact ⟨fun _ => rfl, rfl, ⟨rfl, rfl⟩, rfl, rfl, ⟨rfl, rfl, rfl, rfl⟩, rfl⟩

/-- R54: outside its two refusals the transaction answers a handle. -/
theorem segAlloc_has_answer (len : Plate) {s : State} (hhost : s.env.allocFailures.headD false = false)
    (hroom : s.mem.pool ≠ [] ∨ s.mem.tableSize < s.env.maxTable) : ∃ h u, segAlloc len s = .ok (h, u) := by
  cases ha : segAlloc len s with
  | ok answer => exact ⟨answer.1, answer.2, rfl⟩
  | error r =>
    rcases (segAlloc_error_iff len s r).1 ha with ⟨hfails, -⟩ | ⟨-, hnil, hfull, -⟩
    · exact absurd (hhost.symm.trans hfails) Bool.false_ne_true
    · exact (hroom.elim (· hnil) hfull.not_gt).elim

theorem encode_alloc_toNat (b c : RegIdx) :
    (encode (.alloc b c)).toNat = 8 * 268435456 + b.toNat * 8 + c.toNat :=
  encodeS_toNat 8 0 b c

/-- Settles O17: the transaction gives out a handle (`segAlloc_givesOut`), and ALLOC writes it to its register. -/
theorem allocCreatesZeroedSegment : Obligations.AllocCreatesZeroedSegment := by
  intro b c s hinv hhost hroom
  obtain ⟨h, u, ha⟩ := segAlloc_has_answer (readReg s c) hhost hroom
  obtain ⟨hne, hbefore, hafter, hlen, hzeros, hgrows, hreuses, hcells, hlens⟩ := segAlloc_givesOut hinv ha
  obtain ⟨hregs, hpc, ⟨hrun, hfault⟩, hout, hin, hargs, hio⟩ := segAlloc_frame ha
  have hexec := execAlloc_of_segAlloc b c s u h ha
  have hothers : SameRegsBut b s (writeReg b h u) := fun r hr =>
    (readReg_writeReg_other u b r h hr).trans (hregs r)
  exact ⟨canonicalWord_of_encode_toNat (encode_alloc_toNat b c), fun w hop => decode_of_opcode w 8 hop,
    h, _, hexec, readReg_writeReg_same u b h, hne, hbefore, hafter, hlen, hzeros, hgrows, hreuses, hcells, hlens,
    hothers, hpc, ⟨hrun, hfault⟩, hout, hin, hargs, hio, stepAdvances_of_exec _ s _ hexec hrun hpc rfl⟩

end Sys2Proof.Machine

/-! The statements of spec/44_io.md: OUT (R115) and IN (R116). The environment's answer to the request is settled first
(R48, R49); an error is the fault entry, and otherwise OUT appends one byte, and IN writes one register and may move the
input position. -/

namespace Sys2Proof.Machine

open Sys2Proof.Laws

/-! ### The environment's answer (R48, R49) -/

/-- D15: an environment that may not fail never answers error. -/
theorem ioFails_of_ioMayFail_eq_false {s : State} (h : s.env.ioMayFail = false) : ioFails s = false := by
  rw [ioFails, h, Bool.false_and]

theorem exec_out_of_ioFails (c : RegIdx) {s : State} (h : ioFails s = true) :
    exec (.out c) s = .next (raiseInExecute ⟨.ioError, .absent⟩ s) := by
  rw [exec, execOut, outRequest_error _ s h]

theorem exec_inp_of_ioFails (c : RegIdx) {s : State} (h : ioFails s = true) :
    exec (.inp c) s = .next (raiseInExecute ⟨.ioError, .absent⟩ s) := by
  rw [exec, execInp, inRequest_error s h]

/-! ### OUT (R115) -/

/-- R46: narrowing keeps the low 8 bits of the number. -/
theorem lowByte_toNat (v : Plate) : (lowByte v).toNat = v.toNat % 256 := BitVec.toNat_setWidth 8 v

theorem encode_out_toNat (c : RegIdx) : (encode (.out c)).toNat = 10 * 268435456 + c.toNat := encodeS_toNat 10 0 0 c

theorem exec_out_of_not_ioFails (c : RegIdx) {s : State} (h : ioFails s = false) :
    exec (.out c) s = .next (useIoAnswer { s with out := s.out ++ [lowByte (readReg s c)] }) := by
  rw [exec, execOut, outRequest_done _ s h]

/-- Settles O26: by the sink's answer. -/
theorem outAppendsLowByteOrFaults : Obligations.OutAppendsLowByteOrFaults := by
  intro c s
  refine ⟨canonicalWord_of_encode_toNat (encode_out_toNat c), fun w hop => decode_of_opcode w 10 hop,
    ioFails_of_ioMayFail_eq_false, fun hio => ?_,
    fun hio => ⟨_, exec_out_of_ioFails c hio, faultedInExecute_raiseInExecute _ s⟩⟩
  have hexec := exec_out_of_not_ioFails c hio
  exact ⟨lowByte (readReg s c), _, hexec, lowByte_toNat _, rfl, fun _ => rfl, rfl, ⟨rfl, rfl⟩, rfl, fun _ _ => rfl, rfl,
    ⟨rfl, rfl, rfl, rfl⟩, rfl, rfl, stepAdvances_of_exec _ s _ hexec rfl rfl rfl⟩

/-! ### IN (R116) -/

/-- R46: widening keeps the number of the byte. -/
theorem widenByte_toNat (b : Byte) : (widenByte b).toNat = b.toNat := BitVec.toNat_setWidth_of_le (by decide)

theorem encode_inp_toNat (c : RegIdx) : (encode (.inp c)).toNat = 11 * 268435456 + c.toNat := encodeS_toNat 11 0 0 c

theorem exec_inp_of_byte (c : RegIdx) {s : State} {b : Byte} (h : ioFails s = false)
    (hb : s.env.input[s.inPos]? = some b) :
    exec (.inp c) s = .next (writeReg c (widenByte b) (useIoAnswer { s with inPos := s.inPos + 1 })) := by
  rw [exec, execInp, inRequest_byte b s h hb]

/-- R49, R116: whatever the source answers short of error, IN writes a value `v` and leaves the input position at `n`,
both given by whether INPUT has a byte there. -/
theorem exec_inp_writes_value (c : RegIdx) {s : State} (h : ioFails s = false) :
    ∃ v n, exec (.inp c) s = .next (writeReg c v (useIoAnswer { s with inPos := n })) ∧
      (∀ b, s.env.input[s.inPos]? = some b → v = widenByte b ∧ n = s.inPos + 1) ∧
      (s.env.input.length ≤ s.inPos → v = endOfInputValue ∧ n = s.inPos) := by
  rcases Nat.lt_or_ge s.inPos s.env.input.length with hlt | hend
  · have hb := List.getElem?_eq_getElem hlt
    refine ⟨_, _, exec_inp_of_byte c h hb, fun b hb' => ?_, fun hend => absurd hlt hend.not_gt⟩
    cases hb.symm.trans hb'
    exact ⟨rfl, rfl⟩
  · refine ⟨_, _, execInp_at_end c s h hend, fun b hb => ?_, fun _ => ⟨rfl, rfl⟩⟩
    cases (List.getElem?_eq_none hend).symm.trans hb

/-- Settles O27: by the source's answer; the frame is the same whatever value and input position IN leaves. -/
theorem inReadsByteOrEndOfInputOrFaults : Obligations.InReadsByteOrEndOfInputOrFaults := by
  intro c s
  refine ⟨canonicalWord_of_encode_toNat (encode_inp_toNat c), fun w hop => decode_of_opcode w 11 hop,
    ioFails_of_ioMayFail_eq_false, fun hio => ?_,
    fun hio => ⟨_, exec_inp_of_ioFails c hio, faultedInExecute_raiseInExecute _ s⟩⟩
  obtain ⟨v, n, hexec, hbyte, hend⟩ := exec_inp_writes_value c hio
  have hread : readReg (writeReg c v (useIoAnswer { s with inPos := n })) c = v := readReg_writeReg_same _ c v
  refine ⟨_, hexec, fun b hb => ?_, fun hle => ?_, fun r hr => readReg_writeReg_other _ c r v hr, rfl, ⟨rfl, rfl⟩, rfl,
    fun _ _ => rfl, rfl, ⟨rfl, rfl, rfl, rfl⟩, rfl, rfl, stepAdvances_of_exec _ s _ hexec rfl rfl rfl⟩
  · obtain ⟨hv, hn⟩ := hbyte b hb
    exact ⟨by rw [hread, hv, widenByte_toNat], hn⟩
  · obtain ⟨hv, hn⟩ := hend hle
    exact ⟨hread.trans hv, hn⟩

end Sys2Proof.Machine

/-! The statements of spec/45_control.md: HALT (R120) and LOADPROG (R122). After neither is `pc` incremented: HALT leaves
a stopped machine, and LOADPROG is the one instruction the sequencer exempts (R84), so the step of either is its
execution. What the copy into segment 0 is and that it shares nothing is `loadProgramCopiesWithoutAliasing` (R44). -/

namespace Sys2Proof.Machine

open Sys2Proof.Laws

/-! ### HALT (R120) -/

theorem exec_halt (s : State) : exec .halt s = .next (stopRunning s) := rfl

/-- R80: a step starts from a running machine. -/
theorem step_ne_next_of_stopped {s : State} (h : s.run ≠ .running) (u : State) : step s ≠ .next u := fun hstep =>
  h (step_next s u hstep).1

/-- R84: the sequencer does not move the `pc` of the machine that HALT stopped. -/
theorem step_of_halt {s : State} {w : Plate} (hrun : s.run = .running) (hf : fetch s = .ok w)
    (hd : decode w = .halt) : step s = .next (stopRunning s) := by
  have he : exec (decode w) s = .next (stopRunning s) := by rw [hd, exec_halt]
  rw [step_of_fetch s w _ hrun hf he, advance_of_stopped _ _ (by rw [stopRunning_run]; nofun)]

/-- Settles O30. -/
theorem haltStopsAndHoldsPc : Obligations.HaltStopsAndHoldsPc := by
  have hdecode (w : Plate) (hop : (opcodeField w).toNat = 7) : decode w = .halt := decode_of_opcode w 7 hop
  refine ⟨canonicalWord_of_encode_toNat (encodeS_toNat 7 0 0 0), hdecode, fun s => ?_, fun s w hrun hf hop => ?_⟩
  · exact ⟨_, exec_halt s, rfl, rfl, fun _ => rfl, rfl, rfl, fun _ _ => rfl, rfl, rfl, rfl⟩
  · exact ⟨_, step_of_halt hrun hf (hdecode w hop), rfl, rfl, rfl, fun _ => rfl, rfl, ⟨rfl, rfl, rfl⟩,
      step_ne_next_of_stopped nofun⟩

/-! ### LOADPROG (R122) -/

theorem encode_loadprog_toNat (b c : RegIdx) :
    (encode (.loadprog b c)).toNat = 12 * 268435456 + b.toNat * 8 + c.toNat :=
  encodeS_toNat 12 0 b c

/-- R122: the plain jump. -/
theorem exec_loadprog_of_zero {b : RegIdx} (c : RegIdx) {s : State} (h : readReg s b = 0) :
    exec (.loadprog b c) s = .next (setPc (readReg s c) s) :=
  if_pos ((isZero_iff _).2 h)

theorem exec_loadprog_of_ne_zero {b : RegIdx} (c : RegIdx) {s : State} (h : readReg s b ≠ 0) :
    exec (.loadprog b c) s =
      orFault (segLoadProgram s.mem (readReg s b)) s (fun m => setPc (readReg s c) (setMem m s)) :=
  if_neg fun hz => h ((isZero_iff _).1 hz)

theorem advance_loadprog (b c : RegIdx) (u : State) : advance (.loadprog b c) u = u := by
  by_cases hrun : u.run = .running
  · exact (advance_of_running _ u hrun).trans (if_pos rfl)
  · exact advance_of_stopped _ u hrun

/-- R84: the step of a LOADPROG is its execution. -/
theorem step_of_loadprog {s u : State} {w : Plate} {b c : RegIdx} (hrun : s.run = .running) (hf : fetch s = .ok w)
    (hd : decode w = .loadprog b c) (he : exec (.loadprog b c) s = .next u) : step s = .next u := by
  rw [← hd] at he
  rw [step_of_fetch s w u hrun hf he, hd, advance_loadprog]

/-- R122: a LOADPROG that did not fault left `pc` at its target. -/
theorem exec_loadprog_pc {b c : RegIdx} {s u : State} (he : exec (.loadprog b c) s = .next u)
    (hrun : u.run = .running) : u.pc = readReg s c := by
  rcases execLoadprog_next b c s u he with ⟨-, rfl⟩ | ⟨-, cause, -, rfl⟩ | ⟨-, m, -, rfl⟩
  · rfl
  · cases hrun
  · rfl

/-- R44: the load replaces one entry of the table and nothing else. -/
theorem segLoadProgram_keeps_pool_and_tableSize {m m' : Memory} {h : Plate} (hq : segLoadProgram m h = .ok m') :
    m'.pool = m.pool ∧ m'.tableSize = m.tableSize := by
  obtain ⟨-, rfl⟩ := segLoadProgram_ok m m' h hq
  exact ⟨memory_setSeg_pool .., memory_setSeg_tableSize ..⟩

/-- Settles O31: the meaning by the value of `x[B]`; the target is checked by the fetch of the step after. -/
theorem loadprogJumpsAndReplacesProgram : Obligations.LoadprogJumpsAndReplacesProgram := by
  intro b c s hwf
  refine ⟨canonicalWord_of_encode_toNat (encode_loadprog_toNat b c), fun w hop => decode_of_opcode w 12 hop,
    fun hzero => ?_, fun hne ha => ?_, fun hne ha => ?_, fun w u hrun hf hd hstep hgo => ?_⟩
  · exact ⟨_, exec_loadprog_of_zero c hzero, rfl, rfl, fun _ _ => rfl, fun _ => rfl, ⟨rfl, rfl⟩, rfl, rfl, rfl⟩
  · obtain ⟨-, hload⟩ := loadProgramCopiesWithoutAliasing s.mem (readReg s b) hwf hne
    obtain ⟨m, hm, hlen, hcells, hother, -, hsource, hcopy⟩ := hload ha
    obtain ⟨hpool, htable⟩ := segLoadProgram_keeps_pool_and_tableSize hm
    exact ⟨_, exec_next_of_ok (exec_loadprog_of_ne_zero c hne) hm, rfl, hlen, hcells, hother,
      hpool, htable, fun _ => rfl, ⟨rfl, rfl⟩, ⟨rfl, rfl, rfl⟩, hsource, hcopy⟩
  · exact exec_faults_of_error (exec_loadprog_of_ne_zero c hne) (segLoadProgram_not_allocated ha)
  · obtain ⟨v, he⟩ := execLoadprog_has_next b c s
    cases hstep.symm.trans (step_of_loadprog hrun hf hd he)
    have hpc := exec_loadprog_pc he hgo
    obtain ⟨-, hbeyond⟩ := fetchBeyondProgramFaults u hgo
    rw [hpc] at hbeyond
    exact ⟨hpc, hbeyond⟩

end Sys2Proof.Machine

/-! The statements of spec/60_exceptions.md: the table of causes (R131, R132), the order of the checks (R133) and the
precise fault entry (R134). Both follow from one comparison, `step_faultsAsTabled`: a step makes exactly the fault entry of
the table's first cause. It is put together from the causes of the transactions (`causeOf`), then of the instructions. -/

namespace Sys2Proof.Machine

/-! ### The causes that the transactions answer (R35, R42, R44, R97) -/

/-- The cause that a transaction's answer gives, if it is an error. -/
def causeOf {α : Type} : Except FaultCause α → Option FaultCause
  | .error cause => some cause
  | .ok _ => none

/-- R31: the table of causes writes "not allocated" out. -/
theorem not_allocated_iff_beyond_or_mem_pool (m : Memory) (h : Plate) :
    m.allocated h = false ↔ h.toNat ≥ m.tableSize ∨ h ∈ m.pool := by
  rw [memory_not_allocated_iff, not_and_or, not_lt, not_not]

theorem causeOf_checkAccess (m : Memory) (h j : Plate) : causeOf (checkAccess m h j) = accessFault m h j := by
  simp only [checkAccess, accessFault, not_allocated_iff_beyond_or_mem_pool]
  split
  · rfl
  · split <;> rfl

theorem causeOf_memRead (m : Memory) (h j : Plate) : causeOf (memRead m h j) = accessFault m h j := by
  rw [← causeOf_checkAccess, memRead]
  cases checkAccess m h j <;> rfl

theorem causeOf_memWrite (m : Memory) (h j v : Plate) : causeOf (memWrite m h j v) = accessFault m h j := by
  rw [← causeOf_checkAccess, memWrite]
  cases checkAccess m h j <;> rfl

theorem causeOf_segAbandon (m : Memory) (h : Plate) :
    causeOf (segAbandon m h) =
      if h = 0 ∨ h.toNat ≥ m.tableSize ∨ h ∈ m.pool then some ⟨.oobSegment, .handle h⟩ else none := by
  split
  · next hbad => rw [segAbandon_error_of hbad, causeOf]
  · next hgood =>
    obtain ⟨hne, hallocated⟩ := not_or.1 hgood
    rw [segAbandon, if_neg hne, if_neg ((not_allocated_iff_beyond_or_mem_pool m h).not.2 hallocated), causeOf]

theorem causeOf_segLoadProgram (m : Memory) (h : Plate) :
    causeOf (segLoadProgram m h) =
      if h.toNat ≥ m.tableSize ∨ h ∈ m.pool then some ⟨.oobSegment, .handle h⟩ else none := by
  simp only [segLoadProgram, not_allocated_iff_beyond_or_mem_pool]
  split <;> rfl

theorem causeOf_aluDiv (a b : Plate) :
    causeOf (aluDiv a b) = if b = 0 then some ⟨.divideByZero, .absent⟩ else none := by
  split
  · next hzero => rw [hzero, aluDiv_zero, causeOf]
  · next hne => rw [aluDiv_of_ne_zero a hne, causeOf]

/-- R48, R49: the environment answers error exactly when it may fail and its next answer says so. -/
theorem ioFails_iff (s : State) : ioFails s = true ↔ s.env.ioMayFail = true ∧ s.env.ioErrors.head? = some true := by
  rw [ioFails, Bool.and_eq_true]
  cases s.env.ioErrors <;> simp

/-! ### An instruction faults as its row of the table says (R132) -/

/-- From `s` to `u` the fault entry of `cause` was made with this word; without a cause there was no fault entry. -/
def FaultsAsTabled (cause : Option FaultCause) (word : Option Plate) (s u : State) : Prop :=
  match cause with
  | some c => u = raiseFault c word s
  | none => u.run ≠ .faulted ∧ u.fault = s.fault

/-- R132: an instruction whose row of the table is empty never faults. -/
theorem exec_faultsAsTabled_of_canRaise_nothing {i : Instr} {s u : State} (word : Option Plate) (hrun : s.run = .running)
    (he : exec i s = .next u) (hno : ∀ k, canRaise i k = false) : FaultsAsTabled none word s u := by
  rcases exec_cases i s u he with ⟨-, c, -, -, -, hraise, -⟩ | ⟨-, rfl⟩ | ⟨hkept, hfault, -⟩
  · rw [hno] at hraise
    exact nomatch hraise
  · exact ⟨nofun, rfl⟩
  · exact ⟨by rw [hkept, hrun]; nofun, hfault⟩

/-- R134: an instruction of one transaction faults exactly with the transaction's cause. -/
theorem orFault_faultsAsTabled {α : Type} {answer : Except FaultCause α} {s u : State} {k : α → State}
    (hrun : s.run = .running) (h : orFault answer s k = .next u) (hk : ∀ v, SameControl s (k v)) :
    FaultsAsTabled (causeOf answer) (currentWord s) s u := by
  rcases orFault_next answer s u k h with ⟨cause, rfl, rfl⟩ | ⟨v, rfl, rfl⟩
  · rfl
  · obtain ⟨hkept, hfault⟩ := hk v
    exact ⟨by rw [hkept, hrun]; nofun, hfault⟩

/-- R115, R116: OUT and IN fault exactly with the environment's error. -/
theorem io_faultsAsTabled {s u : State} (hrun : s.run = .running)
    (h : (ioFails s = true ∧ u = raiseInExecute ⟨.ioError, .absent⟩ s) ∨ (ioFails s = false ∧ SameControl s u)) :
    FaultsAsTabled (if s.env.ioMayFail = true ∧ s.env.ioErrors.head? = some true then some ⟨.ioError, .absent⟩ else none)
      (currentWord s) s u := by
  rcases h with ⟨hio, rfl⟩ | ⟨hio, hkept, hfault⟩
  · rw [if_pos ((ioFails_iff s).1 hio)]
    rfl
  · rw [if_neg fun hfails => Bool.false_ne_true (hio.symm.trans ((ioFails_iff s).2 hfails))]
    exact ⟨by rw [hkept, hrun]; nofun, hfault⟩

/-- R122, R140: LOADPROG makes its transaction, and with it can fault, only when `x[B]` is not 0. -/
theorem execLoadprog_faultsAsTabled {b c : RegIdx} {s u : State} (hrun : s.run = .running)
    (he : exec (.loadprog b c) s = .next u) :
    FaultsAsTabled (executeFault (.loadprog b c) s) (currentWord s) s u := by
  rw [executeFault]
  by_cases hzero : readReg s b = 0
  · cases (exec_loadprog_of_zero c hzero).symm.trans he
    rw [if_neg fun hbad => hbad.1 hzero]
    exact ⟨by rw [setPc_run, hrun]; nofun, rfl⟩
  · rw [exec_loadprog_of_ne_zero c hzero] at he
    simp only [ne_eq, hzero, not_false_eq_true, true_and, ← causeOf_segLoadProgram]
    exact orFault_faultsAsTabled hrun he fun _ => ⟨rfl, rfl⟩

/-- R131, R132: the fetched instruction faults exactly as its row of the table says, and records the fetched word. -/
theorem exec_faultsAsTabled {i : Instr} {s u : State} {w : Plate} (hrun : s.run = .running) (hf : fetch s = .ok w)
    (hd : decode w = i) (he : exec i s = .next u) : FaultsAsTabled (executeFault i s) (some w) s u := by
  have hillegal (h : i.wellFormed = false) : u = raiseFault ⟨.decodeError, .absent⟩ (some w) s := by
    cases (exec_of_not_wellFormed h s).symm.trans he
    rw [← hd, encode_decode_illegal w (hd ▸ h), raiseDecodeError]
  rw [← currentWord_of_fetch s w hf] at hillegal ⊢
  cases i with
  | aidx a b c =>
    rw [executeFault, ← causeOf_memRead]
    exact orFault_faultsAsTabled hrun he fun _ => ⟨rfl, rfl⟩
  | amend a b c =>
    rw [executeFault, ← causeOf_memWrite (v := readReg s c)]
    exact orFault_faultsAsTabled hrun he fun _ => ⟨rfl, rfl⟩
  | div a b c =>
    rw [executeFault, ← causeOf_aluDiv (readReg s b)]
    exact orFault_faultsAsTabled hrun he fun _ => ⟨rfl, rfl⟩
  | aband c =>
    rw [executeFault, ← causeOf_segAbandon]
    exact orFault_faultsAsTabled hrun he fun _ => ⟨rfl, rfl⟩
  | loadprog b c => exact execLoadprog_faultsAsTabled hrun he
  | out c =>
    refine io_faultsAsTabled hrun ((execOut_next c s u he).imp_right ?_)
    rintro ⟨hio, rfl⟩
    exact ⟨hio, rfl, rfl⟩
  | inp c =>
    refine io_faultsAsTabled hrun ((execInp_next c s u he).imp_right ?_)
    rintro (⟨hio, -, rfl⟩ | ⟨hio, _, -, rfl⟩) <;> exact ⟨hio, rfl, rfl⟩
  | illegal14 | illegal15 => exact hillegal rfl
  | cmov | add | mul | nand | halt | alloc | ortho =>
    exact exec_faultsAsTabled_of_canRaise_nothing _ hrun he fun _ => rfl

/-- R84: the sequencer adds nothing to a fault and makes none. -/
theorem FaultsAsTabled.advance {cause : Option FaultCause} {word : Option Plate} {s u : State}
    (h : FaultsAsTabled cause word s u) (i : Instr) : FaultsAsTabled cause word s (advance i u) := by
  cases cause with
  | some c =>
    cases h
    exact advance_of_stopped i _ nofun
  | none => rwa [FaultsAsTabled, advance_run, advance_fault]

/-! ### A cycle faults as the table says (R133) -/

theorem cycleFault_of_fetch_beyond {s : State} (h : s.mem.len 0 ≤ s.pc.toNat) :
    cycleFault s = some (⟨.oobPc, .pc s.pc⟩, none) :=
  if_pos h

theorem cycleFault_of_fetch {s : State} {w : Plate} (hf : fetch s = .ok w) :
    cycleFault s = (executeFault (decode w) s).map (·, some w) := by
  obtain ⟨hlt, rfl⟩ := (fetch_ok_iff s w).1 hf
  exact if_neg hlt.not_ge

/-- R131 to R134: a step makes the fault entry of the first cause that the table gives, or none. -/
theorem step_faultsAsTabled {s t : State} (h : step s = .next t) :
    FaultsAsTabled ((cycleFault s).map Prod.fst) ((cycleFault s).bind Prod.snd) s t := by
  obtain ⟨hrun, ⟨cause, hf, rfl⟩ | ⟨w, u, hf, he, rfl⟩⟩ := step_next s t h
  · obtain ⟨hbeyond, rfl⟩ := fetch_error s cause hf
    rw [cycleFault_of_fetch_beyond hbeyond]
    rfl
  · have hexec := (exec_faultsAsTabled hrun hf rfl he).advance (decode w)
    rw [cycleFault_of_fetch hf]
    cases hc : executeFault (decode w) s <;> rwa [hc] at hexec

theorem step_of_cycleFault_some {s t : State} {cause : FaultCause} {word : Option Plate} (h : step s = .next t)
    (hc : cycleFault s = some (cause, word)) : t = raiseFault cause word s := by
  have ht := step_faultsAsTabled h
  rwa [hc] at ht

theorem step_of_cycleFault_none {s t : State} (h : step s = .next t) (hc : cycleFault s = none) :
    t.run ≠ .faulted ∧ t.fault = s.fault := by
  have ht := step_faultsAsTabled h
  rwa [hc] at ht

/-- Settles O41: a step that faults has a cause in the table and is that cause's fault entry; the table records the
fetched word, or none beyond the end of segment 0. -/
theorem faultsArePrecise : Obligations.FaultsArePrecise := by
  intro s t h hrun
  cases hc : cycleFault s with
  | none => exact absurd hrun (step_of_cycleFault_none h hc).1
  | some causeAndWord =>
    obtain ⟨cause, word⟩ := causeAndWord
    rw [step_of_cycleFault_some h hc]
    refine ⟨cause, word, onlyFaulted_raiseFault cause word s, fun w hf => ?_, fun hbeyond => ?_⟩
    · rw [cycleFault_of_fetch hf, Option.map_eq_some_iff] at hc
      obtain ⟨_, -, hpair⟩ := hc
      exact (congrArg Prod.snd hpair).symm
    · cases (cycleFault_of_fetch_beyond hbeyond).symm.trans hc
      rfl

/-- R142: no form of `info` fits the reserved kind, so no record of it fits. -/
theorem kind_ne_oobRegister_of_fits {r : FaultRecord} (h : r.fits = true) : r.kind ≠ .oobRegister := by
  obtain ⟨hinfo, -⟩ := Bool.and_eq_true_iff.1 h
  intro hkind
  rw [hkind] at hinfo
  cases hi : r.info <;> rw [hi] at hinfo <;> exact nomatch hinfo

/-- Settles O42: by whether the table gives a cause; the kind from the form every record has (`step_record_fits`). -/
theorem cycleFaultsExactlyAsTabled : Obligations.CycleFaultsExactlyAsTabled := by
  intro s t _ h
  have hkind (r : FaultRecord) (hr : t.fault = some r) (hrun : t.run = .faulted) : r.kind ≠ .oobRegister :=
    kind_ne_oobRegister_of_fits (step_record_fits s t h hrun r hr).2
  cases hc : cycleFault s with
  | none =>
    obtain ⟨hgo, hfault⟩ := step_of_cycleFault_none h hc
    exact ⟨iff_of_false hgo nofun, nofun, fun _ => hfault, hkind⟩
  | some causeAndWord =>
    have ht := step_of_cycleFault_some h hc
    refine ⟨iff_of_true (by rw [ht, raiseFault_run]) rfl, ?_, nofun, hkind⟩
    rintro cause word ⟨⟩
    rw [ht, raiseFault_fault]

end Sys2Proof.Machine

/-! The statements of spec/70_reset_and_hazards.md: what reset puts (R161 to R165), the invariant it establishes, and
the fetch that sees every store to segment 0 (R172). Segment 0 after reset lists the cells of the image by offset, so
reading it back is `cellsGet_cellsFrom`; the fetch of R172 is a read of segment 0, so what a write and a load put there
is what is fetched (`fetch_of_memRead`). -/

namespace Sys2Proof.Machine

/-! ### Segment 0 is the image, word for word (R164) -/

/-- R164: the cell at the offset of a plate of the sequence holds that plate. A plate that is 0 is not listed, and no
later plate is listed at its offset. -/
theorem cellsGet_cellsFrom (lo : Nat) (ps : List Plate) (k : Nat) :
    cellsGet (cellsFrom lo ps) (lo + k) = ps.getD k unlistedCell := by
  induction ps generalizing lo k with
  | nil => rfl
  | cons v rest ih =>
    have hrest (j : Nat) : cellsGet (cellsFrom (lo + 1) rest) (lo + (j + 1)) = rest.getD j unlistedCell := by
      rw [← ih (lo + 1) j, Nat.add_right_comm, Nat.add_assoc]
    by_cases hv : v = unlistedCell
    · rw [cellsFrom, if_pos hv]
      cases k with
      | zero =>
        have hwf := cellsWf_cellsFrom (lo + 1) _ rest le_rfl
        exact (cellsGet_below (lo + 1) _ lo _ hwf (Nat.lt_succ_self lo)).trans hv.symm
      | succ j => exact hrest j
    · rw [cellsFrom, if_neg hv, cellsGet]
      cases k with
      | zero => exact if_pos rfl
      | succ j => exact (if_neg (by omega)).trans (hrest j)

/-- R30, R164: the segment that holds a sequence of plates, written out, is the sequence. -/
theorem segment_toPlates_ofPlates (ps : List Plate) : (Segment.ofPlates ps).toPlates = ps := by
  refine List.ext_getElem (by simp [Segment.toPlates, Segment.ofPlates]) fun k _ hk => ?_
  have hcell := cellsGet_cellsFrom 0 ps k
  rw [Nat.zero_add, List.getD_eq_getElem _ _ hk] at hcell
  simpa [Segment.toPlates, Segment.ofPlates] using hcell

/-! ### The segment store after reset (R164, R165) -/

@[simp] theorem resetWith_tableSize (image : List Plate) (env : Env) :
    (State.resetWith image env).mem.tableSize = 1 := rfl

@[simp] theorem resetWith_pool (image : List Plate) (env : Env) : (State.resetWith image env).mem.pool = [] := rfl

/-- R31, R165: handle 0 and no other is allocated after reset. -/
theorem resetWith_allocated_iff (image : List Plate) (env : Env) (h : Plate) :
    (State.resetWith image env).mem.allocated h = true ↔ h = 0 := by
  rw [memory_allocated_iff, resetWith_tableSize, resetWith_pool, Nat.lt_one_iff, and_iff_left List.not_mem_nil]
  exact ⟨fun hzero => BitVec.eq_of_toNat_eq hzero, fun hzero => congrArg BitVec.toNat hzero⟩

/-- R32: the store after reset is well-formed when the image fits a segment. -/
theorem resetWith_mem_wf {image : List Plate} (env : Env) (himage : image.length ≤ maxSegmentLength) :
    (State.resetWith image env).mem.wf = true := by
  refine (memory_wf_iff _).2 ⟨le_rfl, fun sg hsg => ?_, (memory_poolWf_iff _).2 ⟨nofun, List.nodup_nil⟩⟩
  rw [List.mem_singleton.1 hsg]
  exact segment_ofPlates_wf image himage

/-- Settles O44: the state before is discarded (R160), and segment 0 written out is the image. -/
theorem resetPutsEveryPieceOfState : Obligations.ResetPutsEveryPieceOfState := fun image env _ =>
  ⟨readReg_resetWith image env, rfl, rfl, resetWith_tableSize image env, resetWith_pool image env,
    segment_toPlates_ofPlates image, resetWith_allocated_iff image env, rfl, rfl⟩

/-! ### The invariant after reset -/

/-- Settles O47: there is one table entry, which `1 ≤ MAX_TABLE` admits, and no fault record. -/
theorem invariantHoldsAfterResetWithImage : Obligations.InvariantHoldsAfterResetWithImage :=
  fun image env himage hone hmax =>
    { memWf := resetWith_mem_wf env himage
      tableFits := (resetWith_tableSize image env).trans_le hone
      maxTableFits := hmax
      inPosFits := Nat.zero_le _
      faultIff := iff_of_false nofun nofun
      recordFits := nofun }

/-- Settles O46: the fixed reset state is reset with the empty image and the default arguments. -/
theorem invariantHoldsAtReset : Obligations.InvariantHoldsAtReset := by
  rw [Obligations.InvariantHoldsAtReset, reset_eq_resetWith]
  exact invariantHoldsAfterResetWithImage [] Env.atReset (Nat.zero_le _) (by decide) le_rfl

/-! ### The next fetch sees a store to segment 0 (R172) -/

/-- R36, R37: a cell of segment 0 that a read answers is fetched alike. -/
theorem fetch_of_memRead {s : State} {v : Plate} (h : memRead s.mem 0 s.pc = .ok v) : fetch s = .ok v := by
  obtain ⟨-, hlt, hv⟩ := memRead_ok s.mem 0 s.pc v h
  exact (fetch_ok_iff s v).2 ⟨hlt, hv⟩

/-- Settles O25: AMEND's cell reads as the stored word, and is the one at the incremented `pc`; LOADPROG's segment 0
reads as the segment it copied, and `pc` is its target. -/
theorem nextFetchSeesStoresToProgram : Obligations.NextFetchSeesStoresToProgram := by
  refine fun s w hwf hrun hf => ⟨fun a b c hd hzero hnext hlt => ?_, fun b c hd hne ha hlt => ?_⟩
  · obtain ⟨-, -, hstore, -, -⟩ := amendStoresOneCellOrFaults a b c s hwf
    rw [hzero] at hstore
    obtain ⟨t, -, hstored, -, -, -, -, -, hadvances⟩ := hstore (memory_zero_allocated s.mem hwf) hlt
    refine ⟨_, hadvances w hrun hf hd, fetch_of_memRead ?_⟩
    rw [← hnext]
    exact hstored
  · obtain ⟨-, -, -, hload, -⟩ := loadprogJumpsAndReplacesProgram b c s hwf
    obtain ⟨t, hexec, hpc, -, hcells, -⟩ := hload hne ha
    refine ⟨t, step_of_loadprog hrun hf hd hexec, fetch_of_memRead ?_⟩
    rw [hpc, hcells _ hlt]
    exact memRead_eq_ok s.mem _ _ ha hlt

end Sys2Proof.Machine
